-- ==== Sys2Proof/Word.lean ====
section
/-! DEFINITION. The word types of CORE (00_scope.md R5, R7, R8): every stored value is unsigned, and
`BitVec` numbers bits as R7 does, bit 0 the least significant. -/

namespace Sys2Proof

/-- A general register, a timer or a memory byte: 8 bits (R5 `XLEN`). -/
abbrev Byte := BitVec 8

/-- PC, I, a stack slot, an instruction word or a fault record field: 16 bits (R5). -/
abbrev Word := BitVec 16

/-- The address immediate NNN of an instruction word: 12 bits (30_encoding.md R91). -/
abbrev Addr12 := BitVec 12

end Sys2Proof
end

