-- ==== Sys2Proof/Config.lean ====
section
/-! DEFINITION. What is fixed for this hardware (00_scope.md R5), the types of the two switches the spec
keeps open, and the one free value. The VALUES the switches and GLYPH_ROM have in this model stand in
Machine/Params.lean. -/

namespace Sys2Proof

/-- Bytes of memory (R5 `MEM_SIZE`). -/
@[simp] abbrev Config.memSize : Nat := 4096

/-- Highest legal address (R5 `ADDR_MAX`). -/
@[simp] abbrev Config.addrMax : Nat := 0xFFF

/-- First byte written by Load and the reset value of PC (R5 `PROG_BASE`). -/
@[simp] abbrev Config.progBase : Nat := 0x200

/-- Longest program Load accepts (R5 `PROG_MAX_LEN`; 70_reset_and_hazards.md R244). -/
@[simp] abbrev Config.progMaxLen : Nat := 3584

/-- Modulus of the FX1E addition (R5 `I_ADD_MOD`; 44_index_memory.md R171). -/
@[simp] abbrev Config.iAddMod : Nat := 32768

/-- The switch `XF_PRIORITY` (93_implementation_defined.md U5): which of the two writes stands when the
result register of a flag-writing ALU instruction is VF. -/
inductive Config.XfPriority where
  | resultLast
  | flagLast
  deriving DecidableEq, Repr

/-- The switch `KEY_INDEX_OOR` (93_implementation_defined.md U6): what EX9E and EXA1 do with an index
above 15. -/
inductive Config.KeyIndexOor where
  | fault
  | notPressed
  | mask4
  deriving DecidableEq, Repr

/-- FREE VALUE. The random byte of the `k`-th CXNN (43_load_alu.md R163, decision D16): "any value 0 to
255, independent of all state, under no law". It has no body, so no proof can learn one of its values.
DESIGN CHOICE (log 2): the sequence is indexed by the model's own counter `State.rndCount`. -/
opaque Config.rnd : Nat → Byte

end Sys2Proof
end

