-- ==== Sys2Proof/WellFormed.lean ====
section
/-! DEFINITION. The checks on what is put before the machine. An `Instr` needs none of its own: its
operand types hold exactly the encodable values (30_encoding.md R93, R94, R99). What can be ill-formed is
an instruction WORD (R98), a PROGRAM handed to Load (70_reset_and_hazards.md R244) and a key INDEX
handed to KeySet (60_exceptions.md R215). -/

namespace Sys2Proof

/-- A row of the opcode table: a word `w` selects the row when `w & mask = bits` (30_encoding.md R97). -/
structure OpcodeRow where
  mnemonic : String
  mask : Word
  bits : Word
  deriving DecidableEq, Repr

/-- `w & mask = match` (R97). -/
def OpcodeRow.selects (r : OpcodeRow) (w : Word) : Bool := w &&& r.mask == r.bits

/-- Rows 1 to 9 of R97: formats Z and A for control flow, and the register skips. -/
def opcodeRowsControl : List OpcodeRow :=
  [⟨"NOP", 0xFFFF, 0x0000⟩, ⟨"CLS", 0xFFFF, 0x00E0⟩, ⟨"RET", 0xFFFF, 0x00EE⟩,
   ⟨"JP_nnn", 0xF000, 0x1000⟩, ⟨"CALL_nnn", 0xF000, 0x2000⟩,
   ⟨"SE_Vx__nn", 0xF000, 0x3000⟩, ⟨"SNE_Vx__nn", 0xF000, 0x4000⟩,
   ⟨"SE_Vx__Vy", 0xF00F, 0x5000⟩, ⟨"SNE_Vx__Vy", 0xF00F, 0x9000⟩]

/-- Rows 10 to 20 of R97: load, arithmetic, logic, shift. -/
def opcodeRowsAlu : List OpcodeRow :=
  [⟨"LD_Vx__nn", 0xF000, 0x6000⟩, ⟨"ADD_Vx__nn", 0xF000, 0x7000⟩,
   ⟨"LD_Vx__Vy", 0xF00F, 0x8000⟩, ⟨"OR_Vx__Vy", 0xF00F, 0x8001⟩,
   ⟨"AND_Vx__Vy", 0xF00F, 0x8002⟩, ⟨"XOR_Vx__Vy", 0xF00F, 0x8003⟩,
   ⟨"ADD_Vx__Vy", 0xF00F, 0x8004⟩, ⟨"SUB_Vx__Vy", 0xF00F, 0x8005⟩,
   ⟨"SHR_Vx__Vy", 0xF00F, 0x8006⟩, ⟨"SUBN_Vx__Vy", 0xF00F, 0x8007⟩,
   ⟨"SHL_Vx__Vy", 0xF00F, 0x800E⟩]

/-- Rows 21 to 35 of R97: index register, jump with offset, random, draw, keypad, timers, memory. -/
def opcodeRowsRest : List OpcodeRow :=
  [⟨"LD_I__nnn", 0xF000, 0xA000⟩, ⟨"JP_V0__nnn", 0xF000, 0xB000⟩,
   ⟨"RND_Vx__nn", 0xF000, 0xC000⟩, ⟨"DRW_Vx__Vy__n", 0xF000, 0xD000⟩,
   ⟨"SKP_Vx", 0xF0FF, 0xE09E⟩, ⟨"SKNP_Vx", 0xF0FF, 0xE0A1⟩,
   ⟨"LD_Vx__DT", 0xF0FF, 0xF007⟩, ⟨"LD_Vx__K", 0xF0FF, 0xF00A⟩,
   ⟨"LD_DT__Vx", 0xF0FF, 0xF015⟩, ⟨"LD_ST__Vx", 0xF0FF, 0xF018⟩,
   ⟨"ADD_I__Vx", 0xF0FF, 0xF01E⟩, ⟨"LD_F__Vx", 0xF0FF, 0xF029⟩,
   ⟨"LD_B__Vx", 0xF0FF, 0xF033⟩, ⟨"LD__I___Vx", 0xF0FF, 0xF055⟩,
   ⟨"LD_Vx___I", 0xF0FF, 0xF065⟩]

/-- The complete opcode map, 35 rows in the order of R97. The machine does not read it: it decodes by the
tree of R96 (Decode.lean); claims compare the two. -/
def opcodeTable : List OpcodeRow := opcodeRowsControl ++ opcodeRowsAlu ++ opcodeRowsRest

/-- A legal instruction word: some row of R97 selects it; "every word that matches no row ... is illegal" (R98). -/
def wordWellFormed (w : Word) : Bool := opcodeTable.any (·.selects w)

/-- A program Load accepts: at most 3584 bytes (70_reset_and_hazards.md R243, R244). -/
def programWellFormed (bytes : List Byte) : Bool := bytes.length ≤ Config.progMaxLen

/-- A key index KeySet accepts: 0 to 15 (60_exceptions.md R214, R215). -/
def keyIndexWellFormed (index : Nat) : Bool := index < 16

end Sys2Proof
end

