-- ==== Sys2Proof/Decode.lean ====
section
/-! DEFINITION. Decoding (30_encoding.md R90 to R99) and the encoder. Decoding is a pure function of the
16 bits of the word (R95), by the two-level tree of R96. -/

namespace Sys2Proof

/-- d1, bits 15:12, the dispatch key (R91). -/
def fieldD1 (w : Word) : BitVec 4 := w.extractLsb' 12 4

/-- d2 = X, bits 11:8 (R91). -/
def fieldX (w : Word) : Reg := (w.extractLsb' 8 4).toFin

/-- d3 = Y, bits 7:4 (R91). -/
def fieldY (w : Word) : Reg := (w.extractLsb' 4 4).toFin

/-- d4, bits 3:0 (R91): the sub-opcode of groups 5, 8 and 9. -/
def fieldD4 (w : Word) : BitVec 4 := w.extractLsb' 0 4

/-- d4 = N as a count of sprite rows (R91, group D). -/
def fieldN (w : Word) : Fin 16 := (fieldD4 w).toFin

/-- NN, bits 7:0 (R91). -/
def fieldNN (w : Word) : Byte := w.extractLsb' 0 8

/-- NNN, bits 11:0 (R91). -/
def fieldNNN (w : Word) : Addr12 := w.extractLsb' 0 12

/-- Group 0: the whole word is tested (R96). -/
def decodeGroup0 (w : Word) : Option Instr :=
  if w = 0x0000 then some .nop
  else if w = 0x00E0 then some .cls
  else if w = 0x00EE then some .ret
  else none

/-- Group 8: d4 selects the operation; 8, 9, A, B, C, D and F are illegal (R96, R98). -/
def decodeGroup8 (w : Word) : Option Instr :=
  match fieldD4 w with
  | 0x0#4 => some (.ldReg (fieldX w) (fieldY w))
  | 0x1#4 => some (.orReg (fieldX w) (fieldY w))
  | 0x2#4 => some (.andReg (fieldX w) (fieldY w))
  | 0x3#4 => some (.xorReg (fieldX w) (fieldY w))
  | 0x4#4 => some (.addReg (fieldX w) (fieldY w))
  | 0x5#4 => some (.subReg (fieldX w) (fieldY w))
  | 0x6#4 => some (.shrReg (fieldX w) (fieldY w))
  | 0x7#4 => some (.subnReg (fieldX w) (fieldY w))
  | 0xE#4 => some (.shlReg (fieldX w) (fieldY w))
  | _ => none

/-- Group E: NN selects (R96). -/
def decodeGroupE (w : Word) : Option Instr :=
  match fieldNN w with
  | 0x9E#8 => some (.skp (fieldX w))
  | 0xA1#8 => some (.sknp (fieldX w))
  | _ => none

/-- Group F: NN selects (R96). -/
def decodeGroupF (w : Word) : Option Instr :=
  match fieldNN w with
  | 0x07#8 => some (.ldVxDt (fieldX w))
  | 0x0A#8 => some (.ldVxK (fieldX w))
  | 0x15#8 => some (.ldDtVx (fieldX w))
  | 0x18#8 => some (.ldStVx (fieldX w))
  | 0x1E#8 => some (.addI (fieldX w))
  | 0x29#8 => some (.ldF (fieldX w))
  | 0x33#8 => some (.ldB (fieldX w))
  | 0x55#8 => some (.storeRegs (fieldX w))
  | 0x65#8 => some (.loadRegs (fieldX w))
  | _ => none

/-- The decode tree of R96; `none` is an illegal word, on which the Step raises UnimplementedOpcode (R98).
d4 is tested in groups 5 and 9: the patterns are taken literally (R98; log 18). -/
def decode (w : Word) : Option Instr :=
  match fieldD1 w with
  | 0x0#4 => decodeGroup0 w
  | 0x1#4 => some (.jp (fieldNNN w))
  | 0x2#4 => some (.call (fieldNNN w))
  | 0x3#4 => some (.seImm (fieldX w) (fieldNN w))
  | 0x4#4 => some (.sneImm (fieldX w) (fieldNN w))
  | 0x5#4 => if fieldD4 w = 0 then some (.seReg (fieldX w) (fieldY w)) else none
  | 0x6#4 => some (.ldImm (fieldX w) (fieldNN w))
  | 0x7#4 => some (.addImm (fieldX w) (fieldNN w))
  | 0x8#4 => decodeGroup8 w
  | 0x9#4 => if fieldD4 w = 0 then some (.sneReg (fieldX w) (fieldY w)) else none
  | 0xA#4 => some (.ldI (fieldNNN w))
  | 0xB#4 => some (.jpV0 (fieldNNN w))
  | 0xC#4 => some (.rnd (fieldX w) (fieldNN w))
  | 0xD#4 => some (.drw (fieldX w) (fieldY w) (fieldN w))
  | 0xE#4 => decodeGroupE w
  | 0xF#4 => decodeGroupF w
  | _ => none

/-- What decoding a sequence of bytes gives: the instruction and the bytes after it, or a rejection by
name. -/
inductive Decoded where
  | instr (i : Instr) (rest : List Byte)
  /-- The word matches no row of R97; it is carried for diagnostics (R98). -/
  | unimplementedOpcode (w : Word)
  /-- Fewer than the two bytes every instruction has (R90). -/
  | truncated
  deriving DecidableEq, Repr

/-- The word of two bytes in memory order: the byte at the lower address is bits 15:8 (20_memory.md R65). -/
def wordOfBytes (hi lo : Byte) : Word := hi ++ lo

/-- Decodes the instruction at the head of any bytes; its length is always 2 (R90). -/
def decodeBytes : List Byte → Decoded
  | hi :: lo :: rest =>
    match decode (wordOfBytes hi lo) with
    | some i => .instr i rest
    | none => .unimplementedOpcode (wordOfBytes hi lo)
  | _ => .truncated

/-- The bytes of a word in memory order, high byte first (20_memory.md R65). -/
def bytesOfWord (w : Word) : List Byte := [w.extractLsb' 8 8, w.extractLsb' 0 8]

/-- The word `spec/opcode_table.json` numbers as `w`, of `nbits` bits: bits above `nbits` are 0. -/
def tableWord (nbits w : Nat) : Word := BitVec.ofNat 16 (w % 2 ^ nbits)

/-- The instruction the decoder reads from the table's word `w` of `nbits` bits. -/
def decodeTableWord (nbits w : Nat) : Option Instr :=
  match decodeBytes (bytesOfWord (tableWord nbits w)) with
  | .instr i _ => some i
  | .unimplementedOpcode _ => none
  | .truncated => none

/-- The nibble of a register number or row count. -/
def nibble (x : Fin 16) : BitVec 4 := BitVec.ofFin x

/-- Formats XI: `oooo xxxx kkkk kkkk` (R92). -/
def encodeXI (d1 : BitVec 4) (x : Reg) (nn : Byte) : Word := d1 ++ nibble x ++ nn

/-- Format A: `oooo nnnn nnnn nnnn` (R92). -/
def encodeA (d1 : BitVec 4) (nnn : Addr12) : Word := d1 ++ nnn

/-- Formats XY and XYN: `oooo xxxx yyyy oooo` and `oooo xxxx yyyy nnnn` (R92). -/
def encodeXY (d1 : BitVec 4) (x y : Reg) (d4 : BitVec 4) : Word := d1 ++ nibble x ++ nibble y ++ d4

/-- Format XF: `oooo xxxx oooo oooo` (R92). -/
def encodeXF (d1 : BitVec 4) (x : Reg) (sub : Byte) : Word := d1 ++ nibble x ++ sub

/-- The word of an instruction, from the patterns of R97. -/
def encode : Instr → Word
  | .nop => 0x0000
  | .cls => 0x00E0
  | .ret => 0x00EE
  | .jp nnn => encodeA 0x1 nnn
  | .call nnn => encodeA 0x2 nnn
  | .seImm x nn => encodeXI 0x3 x nn
  | .sneImm x nn => encodeXI 0x4 x nn
  | .seReg x y => encodeXY 0x5 x y 0x0
  | .sneReg x y => encodeXY 0x9 x y 0x0
  | .ldImm x nn => encodeXI 0x6 x nn
  | .addImm x nn => encodeXI 0x7 x nn
  | .ldReg x y => encodeXY 0x8 x y 0x0
  | .orReg x y => encodeXY 0x8 x y 0x1
  | .andReg x y => encodeXY 0x8 x y 0x2
  | .xorReg x y => encodeXY 0x8 x y 0x3
  | .addReg x y => encodeXY 0x8 x y 0x4
  | .subReg x y => encodeXY 0x8 x y 0x5
  | .shrReg x y => encodeXY 0x8 x y 0x6
  | .subnReg x y => encodeXY 0x8 x y 0x7
  | .shlReg x y => encodeXY 0x8 x y 0xE
  | .ldI nnn => encodeA 0xA nnn
  | .jpV0 nnn => encodeA 0xB nnn
  | .rnd x nn => encodeXI 0xC x nn
  | .drw x y n => encodeXY 0xD x y (nibble n)
  | .skp x => encodeXF 0xE x 0x9E
  | .sknp x => encodeXF 0xE x 0xA1
  | .ldVxDt x => encodeXF 0xF x 0x07
  | .ldVxK x => encodeXF 0xF x 0x0A
  | .ldDtVx x => encodeXF 0xF x 0x15
  | .ldStVx x => encodeXF 0xF x 0x18
  | .addI x => encodeXF 0xF x 0x1E
  | .ldF x => encodeXF 0xF x 0x29
  | .ldB x => encodeXF 0xF x 0x33
  | .storeRegs x => encodeXF 0xF x 0x55
  | .loadRegs x => encodeXF 0xF x 0x65

end Sys2Proof
end

