-- ==== Sys2Proof/Machine/State.lean ====
section
/-! DEFINITION. The state of CORE as plain data (10_state.md R20 to R39), the reasons a step can stop, and
the state after Reset (R35). -/

namespace Sys2Proof.Machine

/-- CAUSE (10_state.md R32; 60_exceptions.md R201). The register's legal values are the codes 0 to 5, one
constructor each; the numbers are `Cause.code` in Machine/Ops.lean. -/
inductive Cause where
  | none
  | unimplementedOpcode
  | outOfBounds
  | stackOverflow
  | stackUnderflow
  | invalidKeyIndex
  deriving DecidableEq, Repr

/-- Memory contents that differ from what an unlisted address reads as (`Memory.background` in
Machine/Memory.lean): addresses strictly rising, no entry equal to the background (`Memory.wf`). -/
abbrev Memory := List Host.Cell

/-- Every piece of state the spec gives CORE (R35), and the model's own `rndCount`. -/
@[ext]
structure State where
  /-- V0 to VF (R20); VF is `v[15]` (R21). -/
  v : Vector Byte 16
  /-- The index register I (R22). -/
  i : Word
  /-- PC: between steps, the address of the next instruction word (R23). -/
  pc : Word
  /-- SP, 0 to 16: how many return addresses are on the stack (R26). -/
  sp : Fin 17
  /-- The call stack's slots (R25). -/
  stack : Vector Word 16
  /-- The 4096 bytes of memory (R27). -/
  mem : Memory
  /-- The display cells, index x + 64*y (R28). -/
  disp : Vector Bool 2048
  /-- The keypad flags (R29). -/
  key : Vector Bool 16
  /-- The delay timer DT (R30). -/
  dt : Byte
  /-- The sound timer ST (R31). -/
  st : Byte
  /-- The halt latch HALT (R32). -/
  halt : Bool
  /-- CAUSE: which fault set HALT (R32). -/
  cause : Cause
  /-- FPC: address of the faulting instruction (R33). -/
  fpc : Word
  /-- FWORD: the faulting word, 0 when none was fetched (R33). -/
  fword : Word
  /-- FVAL: the value that identifies the failure (R33). -/
  fval : Word
  /-- THE MODEL'S OWN FIELD, not the spec's (log 2): how many bytes of `Config.rnd` CXNN has drawn. -/
  rndCount : Nat
  deriving DecidableEq, Repr

/-- Reasons for a step to stop with a fault of the MODEL. There is none: every fatal condition of the spec
has a described entry (60_exceptions.md R203), which a step takes as a next state with HALT = 1, and a
Step is never turned away (70_reset_and_hazards.md R254, row Step). Log 6. -/
inductive Fault where
  deriving DecidableEq, Repr

/-- Reasons for a step to refuse an instruction. -/
inductive Refusal where
  /-- Raised by `exec` for an instruction that has no meaning yet, named by its mnemonic. Safe: the run
  stops. No arm of `exec` raises it now. -/
  | notModelled (mnemonic : String)
  deriving DecidableEq, Repr

/-- What a step or a meaning answers. -/
abbrev Result := Host.Outcome State Fault Refusal

/-- The state after the Reset event (R35; 70_reset_and_hazards.md R240). Memory lists nothing: an unlisted
address reads as its reset contents (20_memory.md R62). -/
def State.reset : State where
  v := Vector.replicate 16 0
  i := 0
  pc := 0x200
  sp := 0
  stack := Vector.replicate 16 0
  mem := []
  disp := Vector.replicate 2048 false
  key := Vector.replicate 16 false
  dt := 0
  st := 0
  halt := false
  cause := .none
  fpc := 0
  fword := 0
  fval := 0
  rndCount := 0

end Sys2Proof.Machine
end

