-- ==== Sys2Proof/Machine/Params.lean ====
section
/-! DEFINITION. The values this model gives to the spec's open parameters (92_eei_decisions.md, "Open
parameters"): each is the default the spec names. -/

namespace Sys2Proof.Machine

/-- `XF_PRIORITY` = result_last (decision D12; 40_step_cycle.md R119). UNVERIFIED, log 4. -/
def xfPriority : Config.XfPriority := .resultLast

/-- `KEY_INDEX_OOR` = fault (decision D10; 46_keypad_timers.md R190). UNVERIFIED, log 5. -/
def keyIndexOor : Config.KeyIndexOor := .fault

/-- Glyphs 0 to 7 of the default `GLYPH_ROM` (20_memory.md R63). -/
def glyphsLow : List Byte :=
  [0xF0, 0x90, 0x90, 0x90, 0xF0] ++ [0x20, 0x60, 0x20, 0x20, 0x70] ++
  [0xF0, 0x10, 0xF0, 0x80, 0xF0] ++ [0xF0, 0x10, 0xF0, 0x10, 0xF0] ++
  [0x90, 0x90, 0xF0, 0x10, 0x10] ++ [0xF0, 0x80, 0xF0, 0x10, 0xF0] ++
  [0xF0, 0x80, 0xF0, 0x90, 0xF0] ++ [0xF0, 0x10, 0x20, 0x40, 0x40]

/-- Glyphs 8 to F of the default `GLYPH_ROM` (20_memory.md R63). -/
def glyphsHigh : List Byte :=
  [0xF0, 0x90, 0xF0, 0x90, 0xF0] ++ [0xF0, 0x90, 0xF0, 0x10, 0xF0] ++
  [0xF0, 0x90, 0xF0, 0x90, 0x90] ++ [0xE0, 0x90, 0xE0, 0x90, 0xE0] ++
  [0xF0, 0x80, 0x80, 0x80, 0xF0] ++ [0xE0, 0x90, 0x90, 0x90, 0xE0] ++
  [0xF0, 0x80, 0xF0, 0x80, 0xF0] ++ [0xF0, 0x80, 0xF0, 0x80, 0x80]

/-- The 80 glyph bytes: the default of the parameter `GLYPH_ROM` (R63, decision D17). PRESUMED (the
CHIP-8 family's conventional font, "from general knowledge, not in source"), log 1. -/
def glyphRom : List Byte := glyphsLow ++ glyphsHigh

end Sys2Proof.Machine
end

