-- ==== Sys2Proof/Machine/Memory.lean ====
section
/-! DEFINITION. The operations over memory (20_memory.md R60 to R73). Addresses are natural numbers: an
effective address is "an unbounded integer compared against 0xFFF, never masked or wrapped"
(44_index_memory.md R176). -/

namespace Sys2Proof.Machine

/-- What an address reads as while nothing has written it: its contents after Reset, `GLYPH_ROM` at 0x000
to 0x04F and 0 elsewhere (20_memory.md R62). -/
def Memory.background (a : Nat) : Byte := glyphRom.getD a 0

/-- The listed byte at an address, if one is listed. -/
def Memory.lookup : Memory → Nat → Option Byte
  | [], _ => none
  | (b, v) :: rest, a => if b = a then some v else Memory.lookup rest a

/-- `mem[a]`. -/
def Memory.read (m : Memory) (a : Nat) : Byte := (m.lookup a).getD (Memory.background a)

/-- Lists `v` at `a`, in place of what was listed there, keeping the addresses rising. -/
def Memory.insertCell : Memory → Nat → Byte → Memory
  | [], a, v => [(a, v)]
  | (b, u) :: rest, a, v =>
    if a < b then (a, v) :: (b, u) :: rest
    else if a = b then (a, v) :: rest
    else (b, u) :: Memory.insertCell rest a v

/-- Takes the entry at `a` out. -/
def Memory.removeCell : Memory → Nat → Memory
  | [], _ => []
  | (b, u) :: rest, a => if b = a then rest else (b, u) :: Memory.removeCell rest a

/-- `mem[a] <- v` (R70). Writing what an unlisted address reads as takes the entry out. -/
def Memory.write (m : Memory) (a : Nat) (v : Byte) : Memory :=
  if v = Memory.background a then m.removeCell a else m.insertCell a v

/-- `mem[a + k] <- bytes[k]`, in ascending address order (R71). -/
def Memory.writeBytes (m : Memory) (a : Nat) : List Byte → Memory
  | [] => m
  | v :: vs => Memory.writeBytes (m.write a v) (a + 1) vs

/-- The canonical form from address `lo` on: addresses strictly rising from `lo`, inside memory, no entry
equal to the background. -/
def Memory.wfFrom (lo : Nat) : Memory → Bool
  | [] => true
  | (b, v) :: rest =>
    decide (lo ≤ b) && decide (b ≤ Config.addrMax) && decide (v ≠ Memory.background b) &&
      Memory.wfFrom (b + 1) rest

/-- The canonical form of memory: equal memories are equal lists. -/
def Memory.wf (m : Memory) : Bool := m.wfFrom 0

/-- Whether an access of `len` bytes at `a` lies inside memory; an access of no byte always does (R68). -/
def inRange (a len : Nat) : Bool := len == 0 || decide (a + len - 1 ≤ Config.addrMax)

/-- The lowest address of the access at `a` that is out of range: max(a, 0x1000) (R69). -/
def outOfRangeValue (a : Word) : Word := BitVec.ofNat 16 (max a.toNat 0x1000)

/-- The big-endian word at `a` and `a + 1` (R65). -/
def Memory.readWord (m : Memory) (a : Nat) : Word := wordOfBytes (m.read a) (m.read (a + 1))

end Sys2Proof.Machine
end

