-- ==== Sys2Proof/Machine/Ops.lean ====
section
/-! DEFINITION. The named operations over the registers, PC, the stack and the rest of the state, fetch, and
FAULT ENTRY as one shared operation.

CONVENTION (log 7): a meaning is given the state BEFORE the Step, in which PC is P, the instruction's own
address. `State.advance` gives the state the instruction rules speak of, with the post-fetch PC
(40_step_cycle.md R112, R115). A fault is taken on the state before the Step, so the roll-back of R117 needs
no work. -/

namespace Sys2Proof.Machine

/-- The code of a cause, 0 to 5 in the 3 bits of CAUSE (60_exceptions.md R201). -/
def Cause.code : Cause → BitVec 3
  | .none => 0
  | .unimplementedOpcode => 1
  | .outOfBounds => 2
  | .stackOverflow => 3
  | .stackUnderflow => 4
  | .invalidKeyIndex => 5

/-- VF is register 15 (10_state.md R21). -/
def vf : Reg := 15

/-- `V[r]` (R20: no register is hardwired). -/
def State.readV (s : State) (r : Reg) : Byte := s.v[r]

/-- `V[r] <- b` (R20). -/
def State.writeV (s : State) (r : Reg) (b : Byte) : State := { s with v := s.v.set r b }

/-- `V[0..15] <- vs`. -/
def State.setV (s : State) (vs : Vector Byte 16) : State := { s with v := vs }

/-- `I <- a` (R22). -/
def State.setI (s : State) (a : Word) : State := { s with i := a }

/-- `PC <- a` (R23). -/
def State.setPc (s : State) (a : Word) : State := { s with pc := a }

/-- `PC <- (PC + 2) mod 65536` (40_step_cycle.md R112; a skip repeats it, 42_skips.md R140). -/
def State.advance (s : State) : State := s.setPc (s.pc + 2)

/-- `DT <- b` (R30). -/
def State.setDt (s : State) (b : Byte) : State := { s with dt := b }

/-- `ST <- b` (R31). -/
def State.setSt (s : State) (b : Byte) : State := { s with st := b }

/-- Replaces memory (R27). -/
def State.setMem (s : State) (m : Memory) : State := { s with mem := m }

/-- Replaces the display (R28). -/
def State.setDisp (s : State) (d : Vector Bool 2048) : State := { s with disp := d }

/-- Replaces the keypad flags (R29). -/
def State.setKey (s : State) (k : Vector Bool 16) : State := { s with key := k }

/-- Counts one draw of the free random byte (log 2). -/
def State.countRnd (s : State) : State := { s with rndCount := s.rndCount + 1 }

/-- Replaces the stack and its pointer (R25, R26). -/
def State.setStack (s : State) (slots : Vector Word 16) (sp : Fin 17) : State :=
  { s with stack := slots, sp := sp }

/-- Push: writes `stack[SP]`, then adds 1 to SP; none when SP = 16 (R26). -/
def State.push (s : State) (a : Word) : Option State :=
  if h : s.sp.val < 16 then
    some (s.setStack (s.stack.set s.sp.val a) ⟨s.sp.val + 1, by omega⟩)
  else none

/-- Pop: subtracts 1 from SP, then reads `stack[SP]`, and leaves the slot as it is (R26, decision D22); none
when SP = 0. -/
def State.pop (s : State) : Option (Word × State) :=
  if h : s.sp.val = 0 then none
  else
    some (s.stack[s.sp.val - 1]'(by omega), s.setStack s.stack ⟨s.sp.val - 1, by omega⟩)

/-- A skip: one more advance of the post-fetch PC when the condition holds (42_skips.md R140). -/
def State.skipIf (s : State) (c : Bool) : State := if c then s.advance else s

/-- FAULT ENTRY (60_exceptions.md R202, R203, R204): HALT, CAUSE and the record are written, FPC is the
address of the faulting instruction, and nothing else changes, PC included. There is no return from it
but Reset (R207). -/
def State.takeFault (s : State) (c : Cause) (word value : Word) : State :=
  { s with halt := true, cause := c, fpc := s.pc, fword := word, fval := value }

/-- `raise`: the Step's answer is the fault's entry, a next state (log 6). -/
def State.raise (s : State) (c : Cause) (word value : Word) : Result :=
  .next (s.takeFault c word value)

/-- The bounds check of FX33, FX55, FX65 and DXYN, made over the whole access of `len` bytes at I before
any effect (20_memory.md R68): in range the answer is `done`, otherwise OutOfBounds (R202). -/
def State.guardAtI (s : State) (len : Nat) (word : Word) (done : State) : Result :=
  if inRange s.i.toNat len then .next done else s.raise .outOfBounds word (outOfRangeValue s.i)

/-- Fetch: `MemRead(P, 2)` (40_step_cycle.md R111); none when PC or PC + 1 lies outside memory. -/
def State.fetch (s : State) : Option Word :=
  if inRange s.pc.toNat 2 then some (s.mem.readWord s.pc.toNat) else none

end Sys2Proof.Machine
end

