-- ==== Sys2Proof/Machine/Flags.lean ====
section
/-! DEFINITION. Every value VF is given as a flag (10_state.md R21), and the order of the flag write and the
result write (40_step_cycle.md R119). -/

namespace Sys2Proof.Machine

/-- A flag as the byte VF holds: 1 or 0 (R21). -/
def flagByte (b : Bool) : Byte := if b then 1 else 0

/-- 8XY4: 1 if the integer sum exceeds 255 (43_load_alu.md R156). -/
def carryFlag (sum : Nat) : Byte := flagByte (decide (sum > 255))

/-- 8XY5, 8XY7: 0 if the integer difference is negative, else 1 (R157, R159). -/
def noBorrowFlag (diff : Int) : Byte := flagByte (!decide (diff < 0))

/-- 8XY6: bit 0 of the source before the shift (R158). -/
def lsbFlag (b : Byte) : Byte := b &&& 1

/-- 8XYE: bit 7 of the source before the shift (R160). -/
def msbFlag (b : Byte) : Byte := (b >>> 7) &&& 1

/-- DXYN: 1 if the draw turned any lit pixel off (45_display.md R181). -/
def collisionFlag (c : Bool) : Byte := flagByte c

/-- The two writes of a flag-writing ALU instruction, flag first and result second, so that for X = F the
result stands (R119); the other order is the switch's other value. -/
def State.writeFlagAndResult (s : State) (x : Reg) (flag result : Byte) : State :=
  match xfPriority with
  | .resultLast => (s.writeV vf flag).writeV x result
  | .flagLast => (s.writeV x result).writeV vf flag

end Sys2Proof.Machine
end

