-- ==== Sys2Proof/Machine/Operands.lean ====
section
/-! DEFINITION. The operand forms beside the plain register (30_encoding.md R93): address immediates,
the arithmetic on I, the registers as a block, the digits of a byte, the keypad and the pixels of a sprite. -/

namespace Sys2Proof.Machine

/-- `zext_16(NNN)` (R94). -/
def addrOfImm (nnn : Addr12) : Word := nnn.setWidth 16

/-- `zext_16` of a register value, as FVAL records it (60_exceptions.md R202). -/
def wordOfByte (b : Byte) : Word := b.setWidth 16

/-- `(V[0] + NNN) mod 65536` (41_control_flow.md R134). -/
def offsetTarget (v0 : Byte) (nnn : Addr12) : Word := BitVec.ofNat 16 (v0.toNat + nnn.toNat)

/-- `(I + vx) mod 32768` (44_index_memory.md R171). -/
def indexSum (i : Word) (vx : Byte) : Word := BitVec.ofNat 16 ((i.toNat + vx.toNat) % Config.iAddMod)

/-- `vx * 5`, the glyph's address for vx up to 15; the whole byte is used (R172). -/
def glyphAddress (vx : Byte) : Word := BitVec.ofNat 16 (vx.toNat * 5)

/-- The hundreds, tens and ones digits, each in a byte of its own (R173). -/
def bcdBytes (vx : Byte) : List Byte :=
  [BitVec.ofNat 8 (vx.toNat / 100), BitVec.ofNat 8 (vx.toNat / 10 % 10), BitVec.ofNat 8 (vx.toNat % 10)]

/-- How many bytes FX55 and FX65 move: X + 1 (R174, R175). -/
def blockLen (x : Reg) : Nat := x.val + 1

/-- V0 to VX, the bytes FX55 stores (R174). -/
def State.regBlock (s : State) (x : Reg) : List Byte := s.v.toList.take (blockLen x)

/-- V0 to VX loaded from memory at `a`, the other registers as they were (R175). -/
def State.loadedRegs (s : State) (a : Nat) (x : Reg) : Vector Byte 16 :=
  Vector.ofFn fun k => if k ≤ x then s.mem.read (a + k.val) else s.v[k]

/-- I after FX55 and FX65: `I + X + 1` (R174, R175). -/
def indexPast (i : Word) (x : Reg) : Word := i + BitVec.ofNat 16 (blockLen x)

/-- The flag of the key a register names. A value above 15 names none: what happens then is the switch
KEY_INDEX_OOR (46_keypad_timers.md R190; log 5), where `none` is the fault. -/
def State.keyFlag (s : State) (vx : Byte) : Option Bool :=
  if h : vx.toNat < 16 then some s.key[vx.toNat]
  else
    match keyIndexOor with
    | .fault => none
    | .notPressed => some false
    | .mask4 => some (s.key[vx.toNat % 16]'(Nat.mod_lt _ (by decide)))

/-- The least pressed key, if any is pressed (46_keypad_timers.md R192). -/
def State.firstKey (s : State) : Option (Fin 16) := (List.finRange 16).find? fun k => s.key[k]

/-- The cell a sprite's bit falls on: column and row wrap per pixel, index x + 64*y (45_display.md R181). -/
def spriteCell (vx vy : Byte) (row col : Nat) : Fin 2048 :=
  ⟨(vx.toNat + col) % 64 + 64 * ((vy.toNat + row) % 32), by omega⟩

/-- The cells under the 1 bits of one sprite row `b`, most significant bit first (R181). -/
def spriteRowCells (vx vy : Byte) (row : Nat) (b : Byte) : List (Fin 2048) :=
  (List.range 8).filterMap fun col => if b.getLsbD (7 - col) then some (spriteCell vx vy row col) else none

/-- The cells under the 1 bits of the `n` sprite rows at `a`, in the order they are drawn (R181). -/
def spriteCells (m : Memory) (a : Nat) (vx vy : Byte) (n : Nat) : List (Fin 2048) :=
  (List.range n).flatMap fun row => spriteRowCells vx vy row (m.read (a + row))

/-- XOR of one cell with 1; the second component records whether a lit pixel has been turned off (R181). -/
def togglePixel (acc : Vector Bool 2048 × Bool) (k : Fin 2048) : Vector Bool 2048 × Bool :=
  (acc.1.set k (!acc.1[k]), acc.2 || acc.1[k])

/-- The display and the collision after drawing on the cells given, one after another (R181). -/
def drawCells (d : Vector Bool 2048) (cells : List (Fin 2048)) : Vector Bool 2048 × Bool :=
  cells.foldl togglePixel (d, false)

end Sys2Proof.Machine
end

