-- ==== Sys2Proof/Machine/ControlFlow.lean ====
section
/-! DEFINITION. Control flow (41_control_flow.md): 0000, 00EE, 1NNN, 2NNN, BNNN. -/

namespace Sys2Proof.Machine

/-- `NOP` (R130). -/
def execNop (s : State) : Result := .next s.advance

/-- `RET` (R131): pops PC; StackUnderflow when the stack is empty, FVAL = 0 (60_exceptions.md R202). -/
def execRet (s : State) : Result :=
  match s.advance.pop with
  | some (target, popped) => .next (popped.setPc target)
  | none => s.raise .stackUnderflow (encode .ret) 0

/-- `JP nnn` (R132). -/
def execJp (nnn : Addr12) (s : State) : Result := .next (s.advance.setPc (addrOfImm nnn))

/-- `CALL nnn` (R133): pushes the post-fetch PC; StackOverflow when the stack is full, FVAL = 16. -/
def execCall (nnn : Addr12) (s : State) : Result :=
  match s.advance.push s.advance.pc with
  | some pushed => .next (pushed.setPc (addrOfImm nnn))
  | none => s.raise .stackOverflow (encode (.call nnn)) 16

/-- `JP V0, nnn` (R134). -/
def execJpV0 (nnn : Addr12) (s : State) : Result :=
  .next (s.advance.setPc (offsetTarget (s.readV 0) nnn))

end Sys2Proof.Machine
end

