-- ==== Sys2Proof/Machine/Display.lean ====
section
/-! DEFINITION. Framebuffer (45_display.md): 00E0, DXYN. -/

namespace Sys2Proof.Machine

/-- `CLS` (R180). -/
def execCls (s : State) : Result := .next (s.advance.setDisp (Vector.replicate 2048 false))

/-- `DRW Vx, Vy, n` (R181): draws the `n` rows at I with the corner at (VX, VY), both read before VF is
written (40_step_cycle.md R118), and writes the collision to VF on every draw. -/
def execDrw (x y : Reg) (n : Fin 16) (s : State) : Result :=
  let drawn := drawCells s.disp (spriteCells s.mem s.i.toNat (s.readV x) (s.readV y) n.val)
  s.guardAtI n.val (encode (.drw x y n))
    ((s.advance.setDisp drawn.1).writeV vf (collisionFlag drawn.2))

end Sys2Proof.Machine
end

