-- ==== Sys2Proof/Machine/IndexMemory.lean ====
section
/-! DEFINITION. Index register and memory (44_index_memory.md): ANNN, FX1E, FX29, FX33, FX55, FX65. -/

namespace Sys2Proof.Machine

/-- `LD I, nnn` (R170). -/
def execLdI (nnn : Addr12) (s : State) : Result := .next (s.advance.setI (addrOfImm nnn))

/-- `ADD I, Vx` (R171): modulo 32768, no flag, no range check. -/
def execAddI (x : Reg) (s : State) : Result := .next (s.advance.setI (indexSum s.i (s.readV x)))

/-- `LD F, Vx` (R172). -/
def execLdF (x : Reg) (s : State) : Result := .next (s.advance.setI (glyphAddress (s.readV x)))

/-- `LD B, Vx` (R173): three digits to I, I + 1, I + 2; I is unchanged. -/
def execLdB (x : Reg) (s : State) : Result :=
  s.guardAtI 3 (encode (.ldB x)) (s.advance.setMem (s.mem.writeBytes s.i.toNat (bcdBytes (s.readV x))))

/-- `LD [I], Vx` (R174): V0 to VX to memory at I, then I + X + 1. -/
def execStoreRegs (x : Reg) (s : State) : Result :=
  s.guardAtI (blockLen x) (encode (.storeRegs x))
    ((s.advance.setMem (s.mem.writeBytes s.i.toNat (s.regBlock x))).setI (indexPast s.i x))

/-- `LD Vx, [I]` (R175): memory at I to V0 to VX, then I + X + 1. -/
def execLoadRegs (x : Reg) (s : State) : Result :=
  s.guardAtI (blockLen x) (encode (.loadRegs x))
    ((s.advance.setV (s.loadedRegs s.i.toNat x)).setI (indexPast s.i x))

end Sys2Proof.Machine
end

