-- ==== Sys2Proof/Machine/KeypadTimers.lean ====
section
/-! DEFINITION. Keypad and timer instructions (46_keypad_timers.md): EX9E, EXA1, FX0A, FX07, FX15, FX18. -/

namespace Sys2Proof.Machine

/-- `SKP Vx` (R190): skips if the key is pressed; InvalidKeyIndex when the register names none. -/
def execSkp (x : Reg) (s : State) : Result :=
  match s.keyFlag (s.readV x) with
  | some pressed => .next (s.advance.skipIf pressed)
  | none => s.raise .invalidKeyIndex (encode (.skp x)) (wordOfByte (s.readV x))

/-- `SKNP Vx` (R191): skips if the key is not pressed; InvalidKeyIndex as R190. -/
def execSknp (x : Reg) (s : State) : Result :=
  match s.keyFlag (s.readV x) with
  | some pressed => .next (s.advance.skipIf (!pressed))
  | none => s.raise .invalidKeyIndex (encode (.sknp x)) (wordOfByte (s.readV x))

/-- `LD Vx, DT` (R193). -/
def execLdVxDt (x : Reg) (s : State) : Result := .next (s.advance.writeV x s.dt)

/-- `LD Vx, K` (R192): the least pressed key, or back to this instruction's own address. -/
def execLdVxK (x : Reg) (s : State) : Result :=
  match s.firstKey with
  | some k => .next (s.advance.writeV x (BitVec.ofNat 8 k.val))
  | none => .next (s.advance.setPc (s.advance.pc - 2))

/-- `LD DT, Vx` (R194). -/
def execLdDtVx (x : Reg) (s : State) : Result := .next (s.advance.setDt (s.readV x))

/-- `LD ST, Vx` (R195). -/
def execLdStVx (x : Reg) (s : State) : Result := .next (s.advance.setSt (s.readV x))

end Sys2Proof.Machine
end

