-- ==== Sys2Proof/Machine/LoadAlu.lean ====
section
/-! DEFINITION. Register load, arithmetic, logic, shift and random (43_load_alu.md). Operands are read from
the state before the instruction (40_step_cycle.md R118). -/

namespace Sys2Proof.Machine

/-- `LD Vx, nn` (R150). -/
def execLdImm (x : Reg) (nn : Byte) (s : State) : Result := .next (s.advance.writeV x nn)

/-- `ADD Vx, nn` (R151): no carry is recorded. -/
def execAddImm (x : Reg) (nn : Byte) (s : State) : Result :=
  .next (s.advance.writeV x (BitVec.ofNat 8 ((s.readV x).toNat + nn.toNat)))

/-- `LD Vx, Vy` (R152). -/
def execLdReg (x y : Reg) (s : State) : Result := .next (s.advance.writeV x (s.readV y))

/-- `OR Vx, Vy` (R153): VF is not touched. -/
def execOrReg (x y : Reg) (s : State) : Result := .next (s.advance.writeV x (s.readV x ||| s.readV y))

/-- `AND Vx, Vy` (R154). -/
def execAndReg (x y : Reg) (s : State) : Result := .next (s.advance.writeV x (s.readV x &&& s.readV y))

/-- `XOR Vx, Vy` (R155). -/
def execXorReg (x y : Reg) (s : State) : Result := .next (s.advance.writeV x (s.readV x ^^^ s.readV y))

/-- `ADD Vx, Vy` (R156): the integer sum gives the carry and, reduced modulo 256, the result. -/
def execAddReg (x y : Reg) (s : State) : Result :=
  let sum : Nat := (s.readV x).toNat + (s.readV y).toNat
  .next (s.advance.writeFlagAndResult x (carryFlag sum) (BitVec.ofNat 8 sum))

/-- `SUB Vx, Vy` (R157): VX - VY. -/
def execSubReg (x y : Reg) (s : State) : Result :=
  let diff : Int := ((s.readV x).toNat : Int) - ((s.readV y).toNat : Int)
  .next (s.advance.writeFlagAndResult x (noBorrowFlag diff) (BitVec.ofInt 8 diff))

/-- `SHR Vx, Vy` (R158): the source is VY. -/
def execShrReg (x y : Reg) (s : State) : Result :=
  .next (s.advance.writeFlagAndResult x (lsbFlag (s.readV y)) (s.readV y >>> 1))

/-- `SUBN Vx, Vy` (R159): VY - VX. -/
def execSubnReg (x y : Reg) (s : State) : Result :=
  let diff : Int := ((s.readV y).toNat : Int) - ((s.readV x).toNat : Int)
  .next (s.advance.writeFlagAndResult x (noBorrowFlag diff) (BitVec.ofInt 8 diff))

/-- `SHL Vx, Vy` (R160): the source is VY. -/
def execShlReg (x y : Reg) (s : State) : Result :=
  .next (s.advance.writeFlagAndResult x (msbFlag (s.readV y)) (s.readV y <<< 1))

/-- `RND Vx, nn` (R163) with the byte `rnd` that its Step was given. -/
def execRndWith (rnd : Byte) (x : Reg) (nn : Byte) (s : State) : Result :=
  .next (s.advance.countRnd.writeV x (rnd &&& nn))

/-- `RND Vx, nn` (R163): the byte is the next free value (log 2). -/
def execRnd (x : Reg) (nn : Byte) (s : State) : Result := execRndWith (Config.rnd s.rndCount) x nn s

end Sys2Proof.Machine
end

