-- ==== Sys2Proof/Machine/Skips.lean ====
section
/-! DEFINITION. Conditional skips on registers (42_skips.md): 3XNN, 4XNN, 5XY0, 9XY0. -/

namespace Sys2Proof.Machine

/-- `SE Vx, nn` (R141). -/
def execSeImm (x : Reg) (nn : Byte) (s : State) : Result :=
  .next (s.advance.skipIf (decide (s.readV x = nn)))

/-- `SNE Vx, nn` (R142). -/
def execSneImm (x : Reg) (nn : Byte) (s : State) : Result :=
  .next (s.advance.skipIf (decide (s.readV x ≠ nn)))

/-- `SE Vx, Vy` (R143). -/
def execSeReg (x y : Reg) (s : State) : Result :=
  .next (s.advance.skipIf (decide (s.readV x = s.readV y)))

/-- `SNE Vx, Vy` (R144). -/
def execSneReg (x y : Reg) (s : State) : Result :=
  .next (s.advance.skipIf (decide (s.readV x ≠ s.readV y)))

end Sys2Proof.Machine
end

