-- ==== Sys2Proof/Machine/Step.lean ====
section
/-! DEFINITION. The Step event (40_step_cycle.md R110) as the host's `step`, and `withFetchWord`. -/

namespace Sys2Proof.Machine

/-- One Step (R110): nothing while HALT = 1 (60_exceptions.md R206); otherwise fetch, decode and execute,
where a failing fetch and an illegal word take their faults (R111, R113; priority R205). -/
def step (s : State) : Host.Outcome State Fault Refusal :=
  if s.halt then .next s
  else
    match s.fetch with
    | none => s.raise .outOfBounds 0 (outOfRangeValue s.pc)
    | some w =>
      match decode w with
      | none => s.raise .unimplementedOpcode w w
      | some i => exec i s

/-- `s` with the word `w` of the opcode table stored where the next Step fetches. A Step fetches only with
HALT = 0 and from PC ≤ 0xFFE, so HALT is cleared, and PC goes to the entry point 0x200 where it is above
0xFFE; neither changes anything in the state after Reset (log 10). -/
def State.withFetchWord (s : State) (nbits w : Nat) : State :=
  let pc : Word := if inRange s.pc.toNat 2 then s.pc else 0x200
  { s with
    halt := false
    pc := pc
    mem := s.mem.writeBytes pc.toNat (bytesOfWord (tableWord nbits w)) }

end Sys2Proof.Machine
end

