-- ==== Sys2Proof/Machine/Events.lean ====
section
/-! DEFINITION. The six host transactions (00_scope.md R10; 70_reset_and_hazards.md R254) and what the host
gets back. `Sys2Proof.core` runs Steps only; any interleaving with the other five is `runEvents` (log 9). -/

namespace Sys2Proof.Machine

/-- `Step(rnd)` (40_step_cycle.md R110): the byte is used only if the instruction is CXNN (43_load_alu.md
R163). `step s` is this transaction with the byte the free value gives. -/
def stepWith (rnd : Byte) (s : State) : Result :=
  if s.halt then .next s
  else
    match s.fetch.bind decode with
    | some (.rnd x nn) => execRndWith rnd x nn s
    | _ => step s

/-- A timer's count-down by one Tick, floor at 0 (60_exceptions.md R211). -/
def countDown (b : Byte) : Byte := if b = 0 then 0 else b - 1

/-- Tick (60_exceptions.md R211): DT and ST count down, independently. -/
def tick (s : State) : State := (s.setDt (countDown s.dt)).setSt (countDown s.st)

/-- Beep during a Tick (R212): asserted exactly when ST = 1 at the start of it. -/
def beeps (s : State) : Bool := decide (s.st = 1)

/-- KeySet (R214): one flag; none when the index is above 15, the transaction refused (R215). -/
def keySet (index : Nat) (pressed : Bool) (s : State) : Option State :=
  if keyIndexWellFormed index then some (s.setKey (s.key.setIfInBounds index pressed)) else none

/-- Load (70_reset_and_hazards.md R243): the bytes to 0x200 upward; none when the program is too long, the
transaction refused whole (R244). -/
def load (bytes : List Byte) (s : State) : Option State :=
  if programWellFormed bytes then some (s.setMem (s.mem.writeBytes Config.progBase bytes)) else none

/-- Screen (60_exceptions.md R217): a copy of the 2048 cells, element `x + 64*y` the pixel (x, y) (R218). -/
def screen (s : State) : Vector Bool 2048 := s.disp

/-- Reset (70_reset_and_hazards.md R240): depends on nothing in the previous state. The model's own counter
of random draws is no state of CORE and goes on, so that a later draw is a fresh free value (log 2). -/
def resetFrom (s : State) : State := { State.reset with rndCount := s.rndCount }

/-- The status outputs, readable between events (60_exceptions.md R219). -/
structure Status where
  halt : Bool
  cause : BitVec 3
  fpc : Word
  fword : Word
  fval : Word
  deriving DecidableEq, Repr

/-- What the host reads of HALT, CAUSE and the fault record (R219). -/
def State.status (s : State) : Status := ⟨s.halt, s.cause.code, s.fpc, s.fword, s.fval⟩

/-- A host transaction (00_scope.md R10). -/
inductive Event where
  | reset
  | load (bytes : List Byte)
  | step (rnd : Byte)
  | tick
  | keySet (index : Nat) (pressed : Bool)
  | screen
  deriving DecidableEq, Repr

/-- What the host gets back from a transaction (70_reset_and_hazards.md R254). -/
inductive Reply where
  | nothing
  | accepted
  | refused
  | beep (pulse : Bool)
  | picture (cells : Vector Bool 2048)
  deriving DecidableEq, Repr

/-- A transaction that may be refused: the new state, or the old one and the refusal (R215, R244). -/
def offer (s : State) : Option State → State × Reply
  | some t => (t, .accepted)
  | none => (s, .refused)

/-- A transaction's outcome: the state after it and the reply (70_reset_and_hazards.md R254). None but Step
looks at HALT (60_exceptions.md R220). -/
def transact (e : Event) (s : State) : Host.Outcome (State × Reply) Fault Refusal :=
  match e with
  | .reset => .next (resetFrom s, .nothing)
  | .load bytes => .next (offer s (load bytes s))
  | .step rnd =>
    match stepWith rnd s with
    | .next t => .next (t, .nothing)
    | .fault r => .fault r
    | .refused r => .refused r
  | .tick => .next (tick s, .beep (beeps s))
  | .keySet index pressed => .next (offer s (keySet index pressed s))
  | .screen => .next (s, .picture (screen s))

/-- A sequence of transactions in the host's order (R253): the final state and the replies. DESIGN CHOICE (log 26;
R246 and decision D30 leave it to the model): a run ends after the number of events the host issues, here the
length of the list, and no predicate on states ends it. -/
def runEvents : List Event → State → Host.Outcome (State × List Reply) Fault Refusal
  | [], s => .next (s, [])
  | e :: es, s =>
    match transact e s with
    | .next (t, r) =>
      match runEvents es t with
      | .next (u, rs) => .next (u, r :: rs)
      | .fault f => .fault f
      | .refused f => .refused f
    | .fault f => .fault f
    | .refused f => .refused f

end Sys2Proof.Machine
end

