-- ==== Sys2Proof/Safety.lean ====
section
/-! DEFINITION. The terms claims use: what a safe run is, the invariant of the machine, which states are
reachable, the faults the spec lists, and what it means that an instruction leaves the rest alone. -/

namespace Sys2Proof.Machine

/-- A state in which nothing has gone wrong: "a model should treat HALT = 1 as 'gone wrong'" (60_exceptions.md
R206). -/
def State.Safe (s : State) : Prop := s.halt = false

/-- The invariant: memory in its canonical form and inside 4096 bytes; the bounds on PC and on return
addresses (10_state.md R24) and on I (R36); HALT, CAUSE and the record agree (R32, R33; 60_exceptions.md
R203, R204). -/
structure State.Inv (s : State) : Prop where
  memory : s.mem.wf = true
  pcBound : s.pc.toNat ≤ 0x10FE
  indexBound : s.i.toNat ≤ 0x7FFF
  stackBound : ∀ k : Fin 16, s.stack[k].toNat ≤ 0x1000
  running : s.halt = false → s.cause = .none ∧ s.fpc = 0 ∧ s.fword = 0 ∧ s.fval = 0
  halted : s.halt = true → s.cause ≠ .none ∧ s.fpc = s.pc

/-- The states some sequence of host transactions leads to from Reset (70_reset_and_hazards.md R253). -/
inductive Reachable : State → Prop where
  | reset : Reachable State.reset
  | transact {s t : State} {e : Event} {r : Reply} :
      Reachable s → transact e s = .next (t, r) → Reachable t

/-- The execute-stage fault of an instruction, with its FVAL: the rows of 60_exceptions.md R200 and R202. "No
other instruction can fault." -/
def listedFault (i : Instr) (s : State) : Option (Cause × Nat) :=
  match i with
  | .ldB _ => if s.i.toNat + 2 > 0xFFF then some (.outOfBounds, max s.i.toNat 0x1000) else none
  | .storeRegs x => if s.i.toNat + x.val > 0xFFF then some (.outOfBounds, max s.i.toNat 0x1000) else none
  | .loadRegs x => if s.i.toNat + x.val > 0xFFF then some (.outOfBounds, max s.i.toNat 0x1000) else none
  | .drw _ _ n =>
    if 0 < n.val ∧ s.i.toNat + n.val - 1 > 0xFFF then some (.outOfBounds, max s.i.toNat 0x1000) else none
  | .call _ => if s.sp.val = 16 then some (.stackOverflow, 16) else none
  | .ret => if s.sp.val = 0 then some (.stackUnderflow, 0) else none
  | .skp x => if (s.readV x).toNat > 15 then some (.invalidKeyIndex, (s.readV x).toNat) else none
  | .sknp x => if (s.readV x).toNat > 15 then some (.invalidKeyIndex, (s.readV x).toNat) else none
  | .nop | .cls | .jp _ | .seImm _ _ | .sneImm _ _ | .seReg _ _ | .sneReg _ _ | .ldImm _ _ | .addImm _ _
  | .ldReg _ _ | .orReg _ _ | .andReg _ _ | .xorReg _ _ | .addReg _ _ | .subReg _ _ | .shrReg _ _
  | .subnReg _ _ | .shlReg _ _ | .ldI _ | .jpV0 _ | .rnd _ _ | .ldVxDt _ | .ldVxK _ | .ldDtVx _
  | .ldStVx _ | .addI _ | .ldF _ => none

/-- `t` is `s` with a fault recorded and nothing else changed (60_exceptions.md R203, R204): `w` the word, `v`
the value. -/
def Faulted (s : State) (c : Cause) (w v : Nat) (t : State) : Prop :=
  t = { s with halt := true, cause := c, fpc := s.pc, fword := t.fword, fval := t.fval } ∧
    t.fword.toNat = w ∧ t.fval.toNat = v

/-- The byte at `a` once `bytes` are stored upward from I over the memory of `s`. -/
def byteWithStored (s : State) (bytes : List Byte) (a : Nat) : Byte :=
  if s.i.toNat ≤ a then bytes.getD (a - s.i.toNat) (s.mem.read a) else s.mem.read a

/-- The same byte at every address. -/
def SameBytes (s t : State) : Prop := ∀ a, t.mem.read a = s.mem.read a

/-- Nothing but the general registers and PC differs. -/
def OnlyRegsAndPc (s t : State) : Prop := t = { s with v := t.v, pc := t.pc } ∧ SameBytes s t

/-- Nothing but PC differs. -/
def OnlyPc (s t : State) : Prop := t = { s with pc := t.pc } ∧ SameBytes s t

/-- Nothing but I and PC differs. -/
def OnlyIndexAndPc (s t : State) : Prop := t = { s with i := t.i, pc := t.pc } ∧ SameBytes s t

/-- Every register but X is as it was. -/
def OtherRegsSame (s t : State) (x : Reg) : Prop := ∀ q : Reg, q ≠ x → t.readV q = s.readV q

/-- The instruction names register `q` as a destination: V[X] where it writes its result, V[0] to V[X] for FX65
(10_state.md R37). The flag write to VF is `writesFlag`. -/
def namesAsDestination (i : Instr) (q : Reg) : Bool :=
  match i with
  | .ldImm x _ | .addImm x _ | .ldReg x _ | .orReg x _ | .andReg x _ | .xorReg x _ | .addReg x _
  | .subReg x _ | .shrReg x _ | .subnReg x _ | .shlReg x _ | .rnd x _ | .ldVxDt x | .ldVxK x => q == x
  | .loadRegs x => decide (q ≤ x)
  | .nop | .cls | .ret | .jp _ | .call _ | .seImm _ _ | .sneImm _ _ | .seReg _ _ | .sneReg _ _ | .ldI _
  | .jpV0 _ | .drw _ _ _ | .skp _ | .sknp _ | .ldDtVx _ | .ldStVx _ | .addI _ | .ldF _ | .ldB _
  | .storeRegs _ => false

/-- The six instructions that write VF as a flag (10_state.md R21). -/
def writesFlag (i : Instr) : Bool :=
  match i with
  | .addReg _ _ | .subReg _ _ | .subnReg _ _ | .shrReg _ _ | .shlReg _ _ | .drw _ _ _ => true
  | .nop | .cls | .ret | .jp _ | .call _ | .seImm _ _ | .sneImm _ _ | .seReg _ _ | .sneReg _ _
  | .ldImm _ _ | .addImm _ _ | .ldReg _ _ | .orReg _ _ | .andReg _ _ | .xorReg _ _ | .ldI _ | .jpV0 _
  | .rnd _ _ | .skp _ | .sknp _ | .ldVxDt _ | .ldVxK _ | .ldDtVx _ | .ldStVx _ | .addI _ | .ldF _
  | .ldB _ | .storeRegs _ | .loadRegs _ => false

/-- The sprite of `n` rows at `a` has a 1 bit on column `col` of row `row` (45_display.md R181: the most
significant bit is the leftmost pixel). -/
def spriteBit (s : State) (row col : Nat) : Bool := (s.mem.read (s.i.toNat + row)).getMsbD col

/-- DXYN covers the pixel in column `px` and row `py` of the screen: one of the sprite's 1 bits falls on it,
wrapped modulo 64 and 32 (R181). -/
def Covers (s : State) (x y : Reg) (n : Fin 16) (px py : Nat) : Prop :=
  ∃ row, row < n.val ∧ ∃ col, col < 8 ∧ spriteBit s row col = true ∧
    ((s.readV x).toNat + col) % 64 = px ∧ ((s.readV y).toNat + row) % 32 = py

/-- The pixel in column `px` and row `py` (10_state.md R28: index x + 64*y). -/
def pixel (s : State) (px py : Nat) (h : px < 64 ∧ py < 32) : Bool := s.disp[px + 64 * py]

/-- `k` Ticks one after another, and the Beep of each. -/
def ticks : Nat → State → State × List Bool
  | 0, s => (s, [])
  | k + 1, s => ((ticks k (tick s)).1, beeps s :: (ticks k (tick s)).2)

end Sys2Proof.Machine
end

