-- ==== Sys2Proof/Certificates/Slice0/Obligations.lean ====
section
/-! DEFINITION. The statements for the provers. R<n> is a numbered rule of spec/; "log <n>" an entry of
notes/assumptions. Every statement of an instruction's result concludes that `exec` answers the next
state of the instruction's own effect, and says what it leaves alone (`OnlyPc`, `OnlyRegsAndPc`,
`OnlyIndexAndPc`: nothing else of the state differs, and every byte of memory reads as before). -/

open Sys2Proof Sys2Proof.Machine

/-! ## Encoding (30_encoding.md) -/

/-- Every instruction, with every operand at every value, is read back from its word: no bit of an encoding is
dropped. -/
def Obligations.DecodeOfEncodeIsTheInstruction : Prop :=
  ∀ i : Instr, decode (encode i) = some i

/-- Every legal word is the word of the instruction it decodes to: "every bit of a legal word is either a fixed
opcode bit or part of an operand that is used" (R99). -/
def Obligations.EncodeOfDecodedIsTheWord : Prop :=
  ∀ (w : Word) (i : Instr), decode w = some i → encode i = w

/-- The decode tree of R96 and the flat table of R97 select the same instruction for every word (R114): a word
decodes exactly when some row selects it, and then the row of its instruction does. -/
def Obligations.DecodeTreeAgreesWithTheOpcodeTable : Prop :=
  ∀ w : Word,
    (decode w = none ↔ ∀ r ∈ opcodeTable, w &&& r.mask ≠ r.bits) ∧
    ∀ i, decode w = some i → ∃ r ∈ opcodeTable, r.mnemonic = i.mnemonic ∧ w &&& r.mask = r.bits

/-- "the rows are disjoint, so at most one matches" (R97). -/
def Obligations.AtMostOneRowSelectsAWord : Prop :=
  ∀ (w : Word), ∀ r ∈ opcodeTable, ∀ q ∈ opcodeTable,
    w &&& r.mask = r.bits → w &&& q.mask = q.bits → r = q

/-- The list of R98: the illegal words are, group by group, exactly these (whether groups 5 and 9 test d4 is read
from the patterns, log 18). -/
def Obligations.IllegalWordsAreExactlyTheListedOnes : Prop :=
  ∀ w : Word, decode w = none ↔
    (w.toNat / 4096 = 0x0 ∧ w.toNat ∉ [0x0000, 0x00E0, 0x00EE]) ∨
    (w.toNat / 4096 = 0x5 ∧ w.toNat % 16 ≠ 0) ∨
    (w.toNat / 4096 = 0x9 ∧ w.toNat % 16 ≠ 0) ∨
    (w.toNat / 4096 = 0x8 ∧ w.toNat % 16 ∈ [0x8, 0x9, 0xA, 0xB, 0xC, 0xD, 0xF]) ∨
    (w.toNat / 4096 = 0xE ∧ w.toNat % 256 ∉ [0x9E, 0xA1]) ∨
    (w.toNat / 4096 = 0xF ∧ w.toNat % 256 ∉ [0x07, 0x0A, 0x15, 0x18, 0x1E, 0x29, 0x33, 0x55, 0x65])

/-- The word of each instruction is its pattern, nibble by nibble (R97, R91): formats A, XI, XY, XYN, XF, Z. -/
def Obligations.WordsFollowThePatterns : Prop :=
  ∀ (x y : Reg) (n : Fin 16) (nn : Byte) (nnn : Addr12),
    (encode .nop).toNat = 0x0000 ∧ (encode .cls).toNat = 0x00E0 ∧ (encode .ret).toNat = 0x00EE ∧
    (encode (.jp nnn)).toNat = 0x1000 + nnn.toNat ∧
    (encode (.call nnn)).toNat = 0x2000 + nnn.toNat ∧
    (encode (.seImm x nn)).toNat = 0x3000 + x.val * 0x100 + nn.toNat ∧
    (encode (.sneImm x nn)).toNat = 0x4000 + x.val * 0x100 + nn.toNat ∧
    (encode (.seReg x y)).toNat = 0x5000 + x.val * 0x100 + y.val * 0x10 ∧
    (encode (.sneReg x y)).toNat = 0x9000 + x.val * 0x100 + y.val * 0x10 ∧
    (encode (.ldImm x nn)).toNat = 0x6000 + x.val * 0x100 + nn.toNat ∧
    (encode (.addImm x nn)).toNat = 0x7000 + x.val * 0x100 + nn.toNat ∧
    (encode (.ldReg x y)).toNat = 0x8000 + x.val * 0x100 + y.val * 0x10 ∧
    (encode (.orReg x y)).toNat = 0x8001 + x.val * 0x100 + y.val * 0x10 ∧
    (encode (.andReg x y)).toNat = 0x8002 + x.val * 0x100 + y.val * 0x10 ∧
    (encode (.xorReg x y)).toNat = 0x8003 + x.val * 0x100 + y.val * 0x10 ∧
    (encode (.addReg x y)).toNat = 0x8004 + x.val * 0x100 + y.val * 0x10 ∧
    (encode (.subReg x y)).toNat = 0x8005 + x.val * 0x100 + y.val * 0x10 ∧
    (encode (.shrReg x y)).toNat = 0x8006 + x.val * 0x100 + y.val * 0x10 ∧
    (encode (.subnReg x y)).toNat = 0x8007 + x.val * 0x100 + y.val * 0x10 ∧
    (encode (.shlReg x y)).toNat = 0x800E + x.val * 0x100 + y.val * 0x10 ∧
    (encode (.ldI nnn)).toNat = 0xA000 + nnn.toNat ∧
    (encode (.jpV0 nnn)).toNat = 0xB000 + nnn.toNat ∧
    (encode (.rnd x nn)).toNat = 0xC000 + x.val * 0x100 + nn.toNat ∧
    (encode (.drw x y n)).toNat = 0xD000 + x.val * 0x100 + y.val * 0x10 + n.val ∧
    (encode (.skp x)).toNat = 0xE09E + x.val * 0x100 ∧
    (encode (.sknp x)).toNat = 0xE0A1 + x.val * 0x100 ∧
    (encode (.ldVxDt x)).toNat = 0xF007 + x.val * 0x100 ∧
    (encode (.ldVxK x)).toNat = 0xF00A + x.val * 0x100 ∧
    (encode (.ldDtVx x)).toNat = 0xF015 + x.val * 0x100 ∧
    (encode (.ldStVx x)).toNat = 0xF018 + x.val * 0x100 ∧
    (encode (.addI x)).toNat = 0xF01E + x.val * 0x100 ∧
    (encode (.ldF x)).toNat = 0xF029 + x.val * 0x100 ∧
    (encode (.ldB x)).toNat = 0xF033 + x.val * 0x100 ∧
    (encode (.storeRegs x)).toNat = 0xF055 + x.val * 0x100 ∧
    (encode (.loadRegs x)).toNat = 0xF065 + x.val * 0x100

/-- A few words written out from the spec's encodings decode to the instructions they stand for, and illegal
words to none (a sanity statement). -/
def Obligations.WrittenOutWordsDecode : Prop :=
  decode 0b0000000011101110#16 = some .ret ∧
  decode 0b0010001100000000#16 = some (.call 0x300) ∧
  decode 0b0011001100101010#16 = some (.seImm 3 0x2A) ∧
  decode 0b1000000100100110#16 = some (.shrReg 1 2) ∧
  decode 0b1010001011110000#16 = some (.ldI 0x2F0) ∧
  decode 0b1101000000010101#16 = some (.drw 0 1 5) ∧
  decode 0b1110000110011110#16 = some (.skp 1) ∧
  decode 0b1111001001010101#16 = some (.storeRegs 2) ∧
  decode 0b0101000100100001#16 = none ∧ decode 0b0000000100100011#16 = none

/-! ## The step cycle (40_step_cycle.md) and fault entry (60_exceptions.md) -/

/-- A STEP RUNS THE DECODED INSTRUCTION. With HALT = 0 and both fetch bytes inside memory, the word is the
big-endian one at PC, at any PC, odd ones too (R65, R67, R111), and the Step is the instruction's own rule
applied to the state; nothing is added around it. -/
def Obligations.StepRunsTheDecodedInstruction : Prop :=
  ∀ (s : State) (i : Instr), s.halt = false → s.pc.toNat ≤ 0xFFE →
    decode (BitVec.ofNat 16
      ((s.mem.read s.pc.toNat).toNat * 256 + (s.mem.read (s.pc.toNat + 1)).toNat)) = some i →
    step s = exec i s

/-- Fetch outside memory: "When P ≥ 0xFFF the fetch raises OutOfBounds with value max(P, 0x1000)" (R111,
decision D5); FWORD is 0 (R202, D2). -/
def Obligations.FetchOutsideMemoryFaults : Prop :=
  ∀ s : State, s.halt = false → 0xFFF ≤ s.pc.toNat →
    ∃ t, step s = .next t ∧ Faulted s .outOfBounds 0 (max s.pc.toNat 0x1000) t

/-- An illegal word raises UnimplementedOpcode at decode, whatever the state, and the word is recorded in FWORD
and FVAL (R98, R113, R202; entry by decision D2). -/
def Obligations.IllegalWordFaults : Prop :=
  ∀ (s : State) (w : Word), s.halt = false → s.pc.toNat ≤ 0xFFE →
    w.toNat = (s.mem.read s.pc.toNat).toNat * 256 + (s.mem.read (s.pc.toNat + 1)).toNat →
    (∀ r ∈ opcodeTable, w &&& r.mask ≠ r.bits) →
    ∃ t, step s = .next t ∧ Faulted s .unimplementedOpcode w.toNat w.toNat t

/-- "If HALT = 1, a Step changes nothing" (R206, decision D2), whatever byte it is given; so of any number of
Steps. -/
def Obligations.HaltedStepsChangeNothing : Prop :=
  ∀ (s : State) (k : Nat) (b : Byte), s.halt = true →
    Sys2Proof.core.run k s = .next s ∧ stepWith b s = .next s

/-- An instruction faults exactly where R200 lists it, with the cause and the values of R202 (decisions D5, D6,
D7, D10); in every other case it takes a next state with HALT, CAUSE and the record as they were. -/
def Obligations.InstructionsFaultExactlyWhereListed : Prop :=
  ∀ (i : Instr) (s : State),
    match listedFault i s with
    | some (c, v) => ∃ t, exec i s = .next t ∧ Faulted s c (encode i).toNat v t
    | none => ∃ t, exec i s = .next t ∧
        t.halt = s.halt ∧ t.cause = s.cause ∧ t.fpc = s.fpc ∧ t.fword = s.fword ∧ t.fval = s.fval

/-- Atomicity and precision (R117, R203, R204; decisions D2, D4): a Step always answers a next state, and either
commits an instruction without touching the fault registers or changes nothing but them, PC staying at the
address of the faulting instruction. -/
def Obligations.StepCommitsOrChangesOnlyTheFaultRecord : Prop :=
  ∀ s : State, s.halt = false → ∃ t, step s = .next t ∧
    ((t.halt = false ∧ t.cause = s.cause ∧ t.fpc = s.fpc ∧ t.fword = s.fword ∧ t.fval = s.fval) ∨
     (t.cause ≠ .none ∧
      t = { s with halt := true, cause := t.cause, fpc := s.pc, fword := t.fword, fval := t.fval }))

/-! ## Invariants -/

/-- The machine's invariant holds after Reset. -/
def Obligations.ResetHasTheInvariant : Prop := State.reset.Inv

/-- Every step keeps the invariant: memory's canonical form, the bounds R24 on PC and return addresses and R36
on I, and the agreement of HALT, CAUSE and the record. -/
def Obligations.StepKeepsTheInvariant : Prop :=
  ∀ s t : State, s.Inv → step s = .next t → t.Inv

/-- So does every host transaction, with any random byte, any program and any key index; and each of them
answers a next state. -/
def Obligations.TransactionsKeepTheInvariant : Prop :=
  ∀ (e : Event) (s : State), s.Inv → ∃ t r, transact e s = .next (t, r) ∧ t.Inv

/-- R24 and R36, the spec's own derivation: in every state reachable from Reset by any interleaving of the host's
transactions PC ≤ 0x10FE and I ≤ 0x7FFF, and every return address on the stack is at most 0x1000. -/
def Obligations.ReachableBoundsOnPcAndIndex : Prop :=
  ∀ s : State, Reachable s →
    s.pc.toNat ≤ 0x10FE ∧ s.i.toNat ≤ 0x7FFF ∧
    ∀ k : Fin 16, k.val < s.sp.val → s.stack[k].toNat ≤ 0x1000

/-! ## Rules about the whole machine -/

/-- Who writes what (R25 to R33, R37), a clause for each row of R37: a general register only where the instruction
names it as a destination or, for VF, writes a flag; I only by the five instructions of R22; PC by every
instruction but one that faults (decision D4); the stack and SP only by 2NNN (one push) and 00EE (one pop);
memory only by FX33 and FX55; the display only by 00E0 and DXYN; the keypad by none; DT only by FX15; ST only
by FX18; HALT, CAUSE and the record only by an instruction that faults. The last clause is about the model's
own counter of draws (log 2). -/
def Obligations.EachPieceOfStateHasItsWriters : Prop :=
  ∀ (i : Instr) (s t : State), exec i s = .next t →
    (∀ q : Reg, t.readV q ≠ s.readV q →
      namesAsDestination i q = true ∨ (q = 15 ∧ writesFlag i = true)) ∧
    (t.i ≠ s.i → ∃ x nnn, i = .ldI nnn ∨ i = .addI x ∨ i = .ldF x ∨ i = .storeRegs x ∨ i = .loadRegs x) ∧
    (t.pc ≠ s.pc → listedFault i s = none) ∧
    (t.stack ≠ s.stack → ∃ nnn, i = .call nnn) ∧
    (t.sp ≠ s.sp → (∃ nnn, i = .call nnn ∧ t.sp.val = s.sp.val + 1) ∨ (i = .ret ∧ t.sp.val + 1 = s.sp.val)) ∧
    (t.mem ≠ s.mem → ∃ x, i = .ldB x ∨ i = .storeRegs x) ∧
    (t.disp ≠ s.disp → i = .cls ∨ ∃ x y n, i = .drw x y n) ∧
    t.key = s.key ∧
    (t.dt ≠ s.dt → ∃ x, i = .ldDtVx x) ∧
    (t.st ≠ s.st → ∃ x, i = .ldStVx x) ∧
    (t.halt ≠ s.halt ∨ t.cause ≠ s.cause ∨ t.fpc ≠ s.fpc ∨ t.fword ≠ s.fword ∨ t.fval ≠ s.fval →
      listedFault i s ≠ none) ∧
    (t.rndCount ≠ s.rndCount → ∃ x nn, i = .rnd x nn)

/-- VF changes only by the six flag-writing instructions and by an instruction that names VF as its destination
(R21, R120; decision D20). -/
def Obligations.VfChangesOnlyAsFlagOrDestination : Prop :=
  ∀ (i : Instr) (s t : State), exec i s = .next t → t.readV 15 ≠ s.readV 15 →
    writesFlag i = true ∨ namesAsDestination i 15 = true

/-- "no instruction reads it" (R31): what ST holds has no influence on anything an instruction does, but for ST
itself. -/
def Obligations.SoundTimerIsNeverRead : Prop :=
  ∀ (i : Instr) (s t : State) (b : Byte), exec i s = .next t →
    exec i { s with st := b } =
      .next { t with st := if ∃ x, i = .ldStVx x then t.st else b }

/-- A program cannot see HALT, CAUSE or the fault record (R32, R33): an instruction that does not fault does the
same whatever they hold. -/
def Obligations.FaultRecordIsInvisibleToInstructions : Prop :=
  ∀ (i : Instr) (s t : State) (h : Bool) (c : Cause) (p w v : Word),
    listedFault i s = none → exec i s = .next t →
    exec i { s with halt := h, cause := c, fpc := p, fword := w, fval := v } =
      .next { t with halt := h, cause := c, fpc := p, fword := w, fval := v }

/-! ## Control flow (41_control_flow.md) -/

/-- NOP (R130): "PC stays at the post-fetch value", nothing else changed. -/
def Obligations.NopOnlyAdvances : Prop :=
  ∀ s : State, ∃ t, exec .nop s = .next t ∧ OnlyPc s t ∧ t.pc = s.pc + 2

/-- JP (R132): "PC <- NNN (zero-extended to 16 bits)"; a jump to its own address leaves the whole state as it
was. -/
def Obligations.JumpLoadsPc : Prop :=
  ∀ (nnn : Addr12) (s : State), ∃ t, exec (.jp nnn) s = .next t ∧ OnlyPc s t ∧
    t.pc.toNat = nnn.toNat ∧ (s.pc.toNat = nnn.toNat → t = s)

/-- JP V0 (R134): PC <- V[0] + NNN, at most 0x10FE, never reduced to 12 bits. -/
def Obligations.JumpWithOffsetAddsV0 : Prop :=
  ∀ (nnn : Addr12) (s : State), ∃ t, exec (.jpV0 nnn) s = .next t ∧ OnlyPc s t ∧
    t.pc.toNat = (s.readV 0).toNat + nnn.toNat ∧ t.pc.toNat ≤ 0x10FE

/-- CALL with a stack that is not full (R133): the post-fetch PC goes to `stack[SP]`, SP counts up, PC <- NNN;
the other slots and the rest of the state are as they were. -/
def Obligations.CallPushesThePostFetchPc : Prop :=
  ∀ (nnn : Addr12) (s : State), s.sp.val < 16 → ∃ t, exec (.call nnn) s = .next t ∧
    t = { s with pc := t.pc, sp := t.sp, stack := t.stack } ∧ SameBytes s t ∧
    t.pc.toNat = nnn.toNat ∧ t.sp.val = s.sp.val + 1 ∧
    ∀ k : Fin 16, t.stack[k] = if k.val = s.sp.val then s.pc + 2 else s.stack[k]

/-- RET with a stack that is not empty (R131): SP counts down, PC is the newest entry; the slot keeps its value
(R26, decision D22) and the rest of the state is as it was. -/
def Obligations.ReturnPopsPc : Prop :=
  ∀ s : State, 0 < s.sp.val → ∃ t, exec .ret s = .next t ∧
    t = { s with pc := t.pc, sp := t.sp } ∧ SameBytes s t ∧
    t.sp.val + 1 = s.sp.val ∧ ∀ k : Fin 16, k.val = t.sp.val → t.pc = s.stack[k]

/-- "Call/return round-trip: executing a call to address A followed eventually by a return restores PC to
(call-site address + 2)" (R112): the return from any state with the stack and SP the call left; SP is
restored too. -/
def Obligations.ReturnUndoesCall : Prop :=
  ∀ (nnn : Addr12) (s t u : State), s.sp.val < 16 → exec (.call nnn) s = .next t →
    u.sp = t.sp → u.stack = t.stack →
    ∃ r, exec .ret u = .next r ∧ r.pc = s.pc + 2 ∧ r.sp = s.sp

/-! ## Skips (42_skips.md) -/

/-- SE Vx, nn and SNE Vx, nn (R141, R142): PC + 4 if the condition holds, else PC + 2 (R140); nothing else. -/
def Obligations.ImmediateSkipsMovePc : Prop :=
  ∀ (x : Reg) (nn : Byte) (s : State),
    (∃ t, exec (.seImm x nn) s = .next t ∧ OnlyPc s t ∧
      t.pc = if s.readV x = nn then s.pc + 4 else s.pc + 2) ∧
    (∃ t, exec (.sneImm x nn) s = .next t ∧ OnlyPc s t ∧
      t.pc = if s.readV x ≠ nn then s.pc + 4 else s.pc + 2)

/-- SE Vx, Vy and SNE Vx, Vy (R143, R144): PC + 4 if the condition holds, else PC + 2; X = Y always skips, or
never. -/
def Obligations.RegisterSkipsMovePc : Prop :=
  ∀ (x y : Reg) (s : State),
    (∃ t, exec (.seReg x y) s = .next t ∧ OnlyPc s t ∧
      (t.pc = if s.readV x = s.readV y then s.pc + 4 else s.pc + 2) ∧ (x = y → t.pc = s.pc + 4)) ∧
    (∃ t, exec (.sneReg x y) s = .next t ∧ OnlyPc s t ∧
      (t.pc = if s.readV x ≠ s.readV y then s.pc + 4 else s.pc + 2) ∧ (x = y → t.pc = s.pc + 2))

/-! ## Load, arithmetic, logic, shifts, random (43_load_alu.md) -/

/-- LD Vx, nn and LD Vx, Vy (R150, R152). VF is written only as the destination. -/
def Obligations.LoadsWriteTheDestination : Prop :=
  ∀ (x y : Reg) (nn : Byte) (s : State),
    (∃ t, exec (.ldImm x nn) s = .next t ∧ OnlyRegsAndPc s t ∧ t.pc = s.pc + 2 ∧
      t.readV x = nn ∧ OtherRegsSame s t x) ∧
    (∃ t, exec (.ldReg x y) s = .next t ∧ OnlyRegsAndPc s t ∧ t.pc = s.pc + 2 ∧
      t.readV x = s.readV y ∧ OtherRegsSame s t x)

/-- ADD Vx, nn (R151): modulo 256, "no carry is recorded". -/
def Obligations.AddImmediateWrapsWithoutCarry : Prop :=
  ∀ (x : Reg) (nn : Byte) (s : State), ∃ t, exec (.addImm x nn) s = .next t ∧ OnlyRegsAndPc s t ∧
    t.pc = s.pc + 2 ∧ (t.readV x).toNat = ((s.readV x).toNat + nn.toNat) % 256 ∧ OtherRegsSame s t x

/-- OR, AND and XOR, bit by bit (R153, R154, R155): "VF is neither cleared nor set", unless it is the
destination. -/
def Obligations.LogicIsBitwiseAndLeavesVf : Prop :=
  ∀ (x y : Reg) (s : State),
    (∃ t, exec (.orReg x y) s = .next t ∧ OnlyRegsAndPc s t ∧ t.pc = s.pc + 2 ∧ OtherRegsSame s t x ∧
      ∀ k < 8, (t.readV x).getLsbD k = ((s.readV x).getLsbD k || (s.readV y).getLsbD k)) ∧
    (∃ t, exec (.andReg x y) s = .next t ∧ OnlyRegsAndPc s t ∧ t.pc = s.pc + 2 ∧ OtherRegsSame s t x ∧
      ∀ k < 8, (t.readV x).getLsbD k = ((s.readV x).getLsbD k && (s.readV y).getLsbD k)) ∧
    (∃ t, exec (.xorReg x y) s = .next t ∧ OnlyRegsAndPc s t ∧ t.pc = s.pc + 2 ∧ OtherRegsSame s t x ∧
      ∀ k < 8, (t.readV x).getLsbD k = ((s.readV x).getLsbD k ^^ (s.readV y).getLsbD k))

/-- ADD Vx, Vy (R156, R161): V[X] is the sum modulo 256, and for X ≠ F VF is 1 exactly when the sum exceeds 255.
For X = F the result stands and the flag is lost: the spec's decision D12 (log 4), the model's choice. -/
def Obligations.AddSetsCarry : Prop :=
  ∀ (x y : Reg) (s : State), ∃ t, exec (.addReg x y) s = .next t ∧ OnlyRegsAndPc s t ∧ t.pc = s.pc + 2 ∧
    (t.readV x).toNat = ((s.readV x).toNat + (s.readV y).toNat) % 256 ∧
    (x ≠ 15 → t.readV 15 = if (s.readV x).toNat + (s.readV y).toNat > 255 then 1 else 0) ∧
    ∀ q : Reg, q ≠ x → q ≠ 15 → t.readV q = s.readV q

/-- SUB and SUBN (R157, R159, R161): "that is a - b when a >= b and a - b + 256 otherwise"; for X ≠ F VF is 1
exactly when there is no borrow, equality included. For X = F the result stands: decision D12 (log 4). -/
def Obligations.SubtractionsSetNoBorrow : Prop :=
  ∀ (x y : Reg) (s : State),
    (∃ t, exec (.subReg x y) s = .next t ∧ OnlyRegsAndPc s t ∧ t.pc = s.pc + 2 ∧
      (t.readV x).toNat + (s.readV y).toNat =
        (s.readV x).toNat + (if (s.readV y).toNat ≤ (s.readV x).toNat then 0 else 256) ∧
      (x ≠ 15 → t.readV 15 = if (s.readV y).toNat ≤ (s.readV x).toNat then 1 else 0) ∧
      ∀ q : Reg, q ≠ x → q ≠ 15 → t.readV q = s.readV q) ∧
    (∃ t, exec (.subnReg x y) s = .next t ∧ OnlyRegsAndPc s t ∧ t.pc = s.pc + 2 ∧
      (t.readV x).toNat + (s.readV x).toNat =
        (s.readV y).toNat + (if (s.readV x).toNat ≤ (s.readV y).toNat then 0 else 256) ∧
      (x ≠ 15 → t.readV 15 = if (s.readV x).toNat ≤ (s.readV y).toNat then 1 else 0) ∧
      ∀ q : Reg, q ≠ x → q ≠ 15 → t.readV q = s.readV q)

/-- SHR and SHL (R158, R160, R161): VY-sourced, one position, logical; for X ≠ F the bit shifted out of VY goes
to VF. V[Y] and the old V[X] play no other part. For X = F the result stands: decision D12 (log 4). -/
def Obligations.ShiftsTakeVyAndSetVf : Prop :=
  ∀ (x y : Reg) (s : State),
    (∃ t, exec (.shrReg x y) s = .next t ∧ OnlyRegsAndPc s t ∧ t.pc = s.pc + 2 ∧
      (t.readV x).toNat = (s.readV y).toNat / 2 ∧
      (x ≠ 15 → (t.readV 15).toNat = (s.readV y).toNat % 2) ∧
      ∀ q : Reg, q ≠ x → q ≠ 15 → t.readV q = s.readV q) ∧
    (∃ t, exec (.shlReg x y) s = .next t ∧ OnlyRegsAndPc s t ∧ t.pc = s.pc + 2 ∧
      (t.readV x).toNat = (s.readV y).toNat * 2 % 256 ∧
      (x ≠ 15 → (t.readV 15).toNat = (s.readV y).toNat / 128) ∧
      ∀ q : Reg, q ≠ x → q ≠ 15 → t.readV q = s.readV q)

/-- RND as `exec` runs it (R163): V[X] is the next free value AND NN, so that it has no bit outside NN, and NN = 0
gives 0. What byte the free value is no proof can learn (decision D16, log 2); the model's own counter of draws
goes up by one, so that the next draw is another free value. -/
def Obligations.RandomByteIsMasked : Prop :=
  ∀ (x : Reg) (nn : Byte) (s : State), ∃ t, exec (.rnd x nn) s = .next t ∧
    t = { s with v := t.v, pc := s.pc + 2, rndCount := s.rndCount + 1 } ∧ SameBytes s t ∧
    t.readV x = Config.rnd s.rndCount &&& nn ∧ t.readV x &&& ~~~nn = 0 ∧ (nn = 0 → t.readV x = 0) ∧
    OtherRegsSame s t x

/-- RND as the Step event runs it (R163, R110): the byte is the one the host gives this Step, any byte; a Step of
any other instruction ignores it. -/
def Obligations.StepEventSuppliesTheRandomByte : Prop :=
  ∀ (s : State) (i : Instr) (b : Byte), s.halt = false → s.pc.toNat ≤ 0xFFE →
    s.mem.readWord s.pc.toNat = encode i →
    match i with
    | .rnd x nn => ∃ t, transact (.step b) s = .next (t, .nothing) ∧
        t = { s with v := t.v, pc := s.pc + 2, rndCount := s.rndCount + 1 } ∧
        t.readV x = b &&& nn ∧ OtherRegsSame s t x
    | _ => stepWith b s = exec i s

/-! ## Index register and memory (44_index_memory.md) -/

/-- LD I, nnn (R170): I <- NNN, zero-extended, so that bits 15:12 of I become 0. -/
def Obligations.LoadIndexImmediate : Prop :=
  ∀ (nnn : Addr12) (s : State), ∃ t, exec (.ldI nnn) s = .next t ∧ OnlyIndexAndPc s t ∧ t.pc = s.pc + 2 ∧
    t.i.toNat = nnn.toNat ∧ ∀ k, 12 ≤ k → t.i.getLsbD k = false

/-- LD F, Vx (R172): the whole byte is multiplied by 5, so I is at most 0x4FB (no mask: decision D26, log 25). -/
def Obligations.GlyphAddressIsFiveTimesTheByte : Prop :=
  ∀ (x : Reg) (s : State), ∃ t, exec (.ldF x) s = .next t ∧ OnlyIndexAndPc s t ∧ t.pc = s.pc + 2 ∧
    t.i.toNat = (s.readV x).toNat * 5 ∧ t.i.toNat ≤ 0x4FB

/-- ADD I, Vx (R171): "I <- (I + vx) mod 32768", VF not written, on overflow or otherwise; the new I is not
range-checked. -/
def Obligations.AddToIndexWrapsAt32768 : Prop :=
  ∀ (x : Reg) (s : State), ∃ t, exec (.addI x) s = .next t ∧ OnlyIndexAndPc s t ∧ t.pc = s.pc + 2 ∧
    t.i.toNat = (s.i.toNat + (s.readV x).toNat) % 32768 ∧ t.readV 15 = s.readV 15

/-- LD B, Vx in range (R173): the three digits, each in a byte of its own, at I, I + 1 and I + 2, whose decimal
value is V[X]; every other byte, I and the registers as they were. -/
def Obligations.BcdStoresThreeDigits : Prop :=
  ∀ (x : Reg) (s : State), s.mem.wf = true → s.i.toNat + 2 ≤ 0xFFF →
    ∃ t, exec (.ldB x) s = .next t ∧ t = { s with pc := s.pc + 2, mem := t.mem } ∧
      (t.mem.read s.i.toNat).toNat = (s.readV x).toNat / 100 ∧
      (t.mem.read (s.i.toNat + 1)).toNat = (s.readV x).toNat / 10 % 10 ∧
      (t.mem.read (s.i.toNat + 2)).toNat = (s.readV x).toNat % 10 ∧
      (∀ a, a < s.i.toNat ∨ s.i.toNat + 2 < a → t.mem.read a = s.mem.read a) ∧ t.mem.wf = true

/-- LD [I], Vx in range (R174): V[k] at I + k for k = 0 to X, every other byte as it was, I <- I + X + 1, the
registers unchanged. -/
def Obligations.StoreRegistersAtIndex : Prop :=
  ∀ (x : Reg) (s : State), s.mem.wf = true → s.i.toNat + x.val ≤ 0xFFF →
    ∃ t, exec (.storeRegs x) s = .next t ∧ t = { s with pc := s.pc + 2, i := t.i, mem := t.mem } ∧
      t.i.toNat = s.i.toNat + x.val + 1 ∧
      (∀ k : Reg, k ≤ x → t.mem.read (s.i.toNat + k.val) = s.readV k) ∧
      (∀ a, a < s.i.toNat ∨ s.i.toNat + x.val < a → t.mem.read a = s.mem.read a) ∧ t.mem.wf = true

/-- LD Vx, [I] in range (R175): V[k] <- mem[I + k] for k = 0 to X, the other registers as they were, I <- I + X +
1, memory unchanged. -/
def Obligations.LoadRegistersFromIndex : Prop :=
  ∀ (x : Reg) (s : State), s.i.toNat + x.val ≤ 0xFFF →
    ∃ t, exec (.loadRegs x) s = .next t ∧ t = { s with v := t.v, pc := s.pc + 2, i := t.i } ∧
      SameBytes s t ∧ t.i.toNat = s.i.toNat + x.val + 1 ∧
      ∀ k : Reg, t.readV k = if k ≤ x then s.mem.read (s.i.toNat + k.val) else s.readV k

/-- "A program may rely on: a store by FX33 or FX55 is visible to every later FX65 ..." (R74): registers stored
and, with I set back, loaded again are what they were, whatever the registers held in between. -/
def Obligations.LoadAfterStoreRestoresRegisters : Prop :=
  ∀ (x : Reg) (s t u : State), s.mem.wf = true → s.i.toNat + x.val ≤ 0xFFF →
    exec (.storeRegs x) s = .next t → u.mem = t.mem → u.i = s.i →
    ∃ r, exec (.loadRegs x) u = .next r ∧ r.i = t.i ∧ ∀ k : Reg, k ≤ x → r.readV k = s.readV k

/-- Self-modifying code (R74, R76): what FX55 with any X, or FX33, stores is seen by the fetch of the very next
Step, wherever PC then points, be it at stored bytes, at bytes beside them or at one of each; and that Step runs
the instruction of the word so fetched. -/
def Obligations.StoredWordIsFetchedNext : Prop :=
  ∀ (x : Reg) (s : State), s.mem.wf = true → (s.pc + 2).toNat ≤ 0xFFE →
    (s.i.toNat + x.val ≤ 0xFFF → ∃ t, exec (.storeRegs x) s = .next t ∧ t.pc = s.pc + 2 ∧
      let byteAt := byteWithStored s (s.v.toList.take (x.val + 1))
      let w := wordOfBytes (byteAt (s.pc + 2).toNat) (byteAt ((s.pc + 2).toNat + 1))
      t.fetch = some w ∧ ∀ i, s.halt = false → decode w = some i → step t = exec i t) ∧
    (s.i.toNat + 2 ≤ 0xFFF → ∃ t, exec (.ldB x) s = .next t ∧ t.pc = s.pc + 2 ∧
      let byteAt := byteWithStored s (bcdBytes (s.readV x))
      let w := wordOfBytes (byteAt (s.pc + 2).toNat) (byteAt ((s.pc + 2).toNat + 1))
      t.fetch = some w ∧ ∀ i, s.halt = false → decode w = some i → step t = exec i t)

/-! ## Display (45_display.md) -/

/-- CLS (R180): all 2048 cells become 0; VF, I, memory and the timers are untouched. -/
def Obligations.ClearTurnsEveryPixelOff : Prop :=
  ∀ s : State, ∃ t, exec .cls s = .next t ∧ t = { s with pc := s.pc + 2, disp := t.disp } ∧
    SameBytes s t ∧ ∀ k : Fin 2048, t.disp[k] = false

/-- DRW in range (R181, R182): exactly the pixels the sprite covers are inverted, wrapped per pixel; VF is 1
exactly when a covered pixel was lit, for X or Y = F too, whose coordinate is the old VF (the reading order
of decision D11); I, memory and the other registers are unchanged. N = 0 needs no address. -/
def Obligations.DrawInvertsCoveredPixels : Prop :=
  ∀ (x y : Reg) (n : Fin 16) (s : State), n.val = 0 ∨ s.i.toNat + n.val - 1 ≤ 0xFFF →
    ∃ t, exec (.drw x y n) s = .next t ∧ t = { s with v := t.v, pc := s.pc + 2, disp := t.disp } ∧
      SameBytes s t ∧ OtherRegsSame s t 15 ∧
      (∀ px py (h : px < 64 ∧ py < 32),
        (Covers s x y n px py → pixel t px py h = !pixel s px py h) ∧
        (¬Covers s x y n px py → pixel t px py h = pixel s px py h)) ∧
      (t.readV 15 = 0 ∨ t.readV 15 = 1) ∧
      (t.readV 15 = 1 ↔ ∃ px py, ∃ h : px < 64 ∧ py < 32, Covers s x y n px py ∧ pixel s px py h = true)

/-- The XOR-drawing law (R183): the same sprite drawn again at the same place restores the display exactly, and
reports 1 if and only if the first draw left a covered pixel lit. -/
def Obligations.DrawingTwiceRestoresTheDisplay : Prop :=
  ∀ (x y : Reg) (n : Fin 16) (s t u : State), n.val = 0 ∨ s.i.toNat + n.val - 1 ≤ 0xFFF →
    exec (.drw x y n) s = .next t → t.readV x = s.readV x → t.readV y = s.readV y →
    exec (.drw x y n) t = .next u →
    u.disp = s.disp ∧
    (u.readV 15 = 1 ↔ ∃ px py, ∃ h : px < 64 ∧ py < 32, Covers s x y n px py ∧ pixel t px py h = true)

/-! ## Keypad and timer instructions (46_keypad_timers.md) -/

/-- SKP and SKNP with an index of 0 to 15 (R190, R191): PC + 4 or PC + 2 on the flag of that key. -/
def Obligations.KeySkipsTestTheFlag : Prop :=
  ∀ (x : Reg) (k : Fin 16) (s : State), (s.readV x).toNat = k.val →
    (∃ t, exec (.skp x) s = .next t ∧ OnlyPc s t ∧
      t.pc = if s.key[k] = true then s.pc + 4 else s.pc + 2) ∧
    (∃ t, exec (.sknp x) s = .next t ∧ OnlyPc s t ∧
      t.pc = if s.key[k] = false then s.pc + 4 else s.pc + 2)

/-- LD Vx, K (R192): with keys pressed, the least of them goes to V[X] and PC advances; with none, the Step
completes and nothing at all has changed, PC being back on the instruction. -/
def Obligations.KeyWaitPollsTheLeastKey : Prop :=
  ∀ (x : Reg) (s : State),
    (∀ k : Fin 16, s.key[k] = true → (∀ j : Fin 16, j < k → s.key[j] = false) →
      ∃ t, exec (.ldVxK x) s = .next t ∧ OnlyRegsAndPc s t ∧ t.pc = s.pc + 2 ∧
        (t.readV x).toNat = k.val ∧ OtherRegsSame s t x) ∧
    ((∀ k : Fin 16, s.key[k] = false) → exec (.ldVxK x) s = .next s)

/-- LD Vx, DT, LD DT, Vx and LD ST, Vx (R193, R194, R195). Of the Ticks after FX18 exactly the n-th beeps, n the
byte written, and none if it is 0; a Step itself replies no Beep. -/
def Obligations.TimerInstructionsMoveBytes : Prop :=
  ∀ (x : Reg) (s : State),
    (∃ t, exec (.ldVxDt x) s = .next t ∧ OnlyRegsAndPc s t ∧ t.pc = s.pc + 2 ∧
      t.readV x = s.dt ∧ OtherRegsSame s t x) ∧
    (∃ t, exec (.ldDtVx x) s = .next t ∧ t = { s with pc := s.pc + 2, dt := s.readV x } ∧ SameBytes s t) ∧
    (∃ t, exec (.ldStVx x) s = .next t ∧ t = { s with pc := s.pc + 2, st := s.readV x } ∧ SameBytes s t ∧
      (∀ k m, m < k → ((ticks k t).2[m]? = some true ↔ m + 1 = (s.readV x).toNat)) ∧
      ∀ b u r, transact (.step b) s = .next (u, r) → r = .nothing)

/-! ## Host transactions (60_exceptions.md, 70_reset_and_hazards.md) -/

/-- Tick (R211) and Beep (R212): each counter goes down by exactly one and stays at 0; Beep exactly when ST was
1; nothing else changes. -/
def Obligations.TickCountsBothTimersDown : Prop :=
  ∀ s : State, ∃ t b, transact .tick s = .next (t, .beep b) ∧
    t = { s with dt := t.dt, st := t.st } ∧
    t.dt.toNat = s.dt.toNat - 1 ∧ t.st.toNat = s.st.toNat - 1 ∧ (b = true ↔ s.st.toNat = 1)

/-- "writing n ≥ 1 produces exactly one Beep pulse, on the n-th following Tick" (R195, R212), "writing 0 produces
none"; and k Ticks take k from each timer, floor at 0. -/
def Obligations.OneBeepOnTheTickThatEndsTheSound : Prop :=
  ∀ (k : Nat) (s : State),
    (ticks k s).1.dt.toNat = s.dt.toNat - k ∧ (ticks k s).1.st.toNat = s.st.toNat - k ∧
    (ticks k s).2.length = k ∧
    ∀ m, m < k → ((ticks k s).2[m]? = some true ↔ m + 1 = s.st.toNat)

/-- KeySet (R214): one flag, nothing else; an index above 15 is refused and nothing changes (R215, decision
D9). -/
def Obligations.KeySetWritesOneFlag : Prop :=
  ∀ (index : Nat) (pressed : Bool) (s : State),
    (index < 16 → ∃ t, transact (.keySet index pressed) s = .next (t, .accepted) ∧
      t = { s with key := t.key } ∧
      ∀ k : Fin 16, t.key[k] = if k.val = index then pressed else s.key[k]) ∧
    (16 ≤ index → transact (.keySet index pressed) s = .next (s, .refused))

/-- Load (R243): the bytes from 0x200 upward, every other byte as it was, nothing else changed; more than 3584
bytes are refused whole (R244, decision D8). -/
def Obligations.LoadCopiesTheProgram : Prop :=
  ∀ (bytes : List Byte) (s : State), s.mem.wf = true →
    (bytes.length ≤ 3584 → ∃ t, transact (.load bytes) s = .next (t, .accepted) ∧
      t = { s with mem := t.mem } ∧ t.mem.wf = true ∧
      (∀ k (h : k < bytes.length), t.mem.read (0x200 + k) = bytes[k]) ∧
      ∀ a, a < 0x200 ∨ 0x200 + bytes.length ≤ a → t.mem.read a = s.mem.read a) ∧
    (3584 < bytes.length → transact (.load bytes) s = .next (s, .refused))

/-- Reset (R240, R35): every piece of state has the table's value whatever the state was, HALT included; the
zeros are the spec's decision D13 (log 3), the glyph bytes its default D17 (log 1). -/
def Obligations.ResetGivesTheTableValues : Prop :=
  ∀ s : State, ∃ t, transact .reset s = .next (t, .nothing) ∧
    t.pc = 0x200 ∧ t.i = 0 ∧ t.sp.val = 0 ∧ t.dt = 0 ∧ t.st = 0 ∧
    t.halt = false ∧ t.cause.code = 0 ∧ t.fpc = 0 ∧ t.fword = 0 ∧ t.fval = 0 ∧
    (∀ r : Reg, t.readV r = 0) ∧ (∀ k : Fin 16, t.stack[k] = 0 ∧ t.key[k] = false) ∧
    (∀ k : Fin 2048, t.disp[k] = false) ∧
    (∀ a, a < 80 → some (t.mem.read a) = glyphRom[a]?) ∧ ∀ a, 80 ≤ a → t.mem.read a = 0

/-- HALT stops Steps only (R220, decision D18): Tick, KeySet, Load and Screen do the same, and reply the same,
whatever HALT, CAUSE and the record hold, and leave them as they are. -/
def Obligations.HostEventsIgnoreTheHaltLatch : Prop :=
  ∀ (e : Event) (s t : State) (r : Reply) (h : Bool) (c : Cause) (p w v : Word),
    e ≠ .reset → (∀ b, e ≠ .step b) → transact e s = .next (t, r) →
    transact e { s with halt := h, cause := c, fpc := p, fword := w, fval := v } =
      .next ({ t with halt := h, cause := c, fpc := p, fword := w, fval := v }, r)

/-- Screen (R217, R218): a copy of the cells, element x + 64*y the pixel (x, y); the state does not change. -/
def Obligations.ScreenIsACopyOfTheCells : Prop :=
  ∀ s : State, ∃ cells : Vector Bool 2048, transact .screen s = .next (s, .picture cells) ∧
    ∀ px py (h : px < 64 ∧ py < 32), cells[px + 64 * py] = pixel s px py h

/-- "A Step with no program loaded executes NOPs from 0x200 upward and faults OutOfBounds when PC reaches 0x1000
(1792 Steps after Reset: 1792 NOPs, then the fault on Step 1793)" (R245). Memory is 0 there by the spec's
decision D13 (log 3). -/
def Obligations.UnloadedMachineRunsNopsThenFaults : Prop :=
  (∀ k, k ≤ 1792 →
    Sys2Proof.core.run k State.reset = .next { State.reset with pc := BitVec.ofNat 16 (0x200 + 2 * k) }) ∧
  ∃ t, Sys2Proof.core.run 1793 State.reset = .next t ∧
    Faulted { State.reset with pc := 0x1000 } .outOfBounds 0 0x1000 t
end

