-- ==== Sys2Proof/Laws/Decode.lean ====
section
/-! SUPPORT. The fields of a word as numbers, and the fields of each encoded format. -/

namespace Sys2Proof

/-! Every field of a word, as a number. -/

theorem fieldD1_toNat (w : Word) : (fieldD1 w).toNat = w.toNat / 4096 := by
  have := w.isLt
  simp only [fieldD1, BitVec.extractLsb'_toNat, Nat.shiftRight_eq_div_pow]
  omega

theorem fieldX_val (w : Word) : (fieldX w).val = w.toNat / 256 % 16 := by
  simp only [fieldX, BitVec.toFin_extractLsb', Nat.shiftRight_eq_div_pow]
  rfl

theorem fieldY_val (w : Word) : (fieldY w).val = w.toNat / 16 % 16 := by
  simp only [fieldY, BitVec.toFin_extractLsb', Nat.shiftRight_eq_div_pow]
  rfl

theorem fieldD4_toNat (w : Word) : (fieldD4 w).toNat = w.toNat % 16 := by
  simp only [fieldD4, BitVec.extractLsb'_toNat, Nat.shiftRight_zero]

theorem fieldNN_toNat (w : Word) : (fieldNN w).toNat = w.toNat % 256 := by
  simp only [fieldNN, BitVec.extractLsb'_toNat, Nat.shiftRight_zero]

theorem fieldNNN_toNat (w : Word) : (fieldNNN w).toNat = w.toNat % 4096 := by
  simp only [fieldNNN, BitVec.extractLsb'_toNat, Nat.shiftRight_zero]

/-! The word of each format, as a number. -/

theorem append_toNat {n k : Nat} (a : BitVec n) (b : BitVec k) :
    (a ++ b).toNat = a.toNat * 2 ^ k + b.toNat := by
  rw [BitVec.toNat_append, ← Nat.shiftLeft_add_eq_or_of_lt b.isLt, Nat.shiftLeft_eq]

theorem nibble_toNat (x : Fin 16) : (nibble x).toNat = x.val := rfl

theorem encodeA_toNat (d1 : BitVec 4) (nnn : Addr12) :
    (encodeA d1 nnn).toNat = d1.toNat * 4096 + nnn.toNat := append_toNat _ _

theorem encodeXI_toNat (d1 : BitVec 4) (x : Reg) (nn : Byte) :
    (encodeXI d1 x nn).toNat = d1.toNat * 4096 + x.val * 256 + nn.toNat := by
  have h : (encodeXI d1 x nn).toNat = (d1 ++ nibble x ++ nn).toNat := rfl
  rw [h, append_toNat, append_toNat, nibble_toNat]
  omega

theorem encodeXF_toNat (d1 : BitVec 4) (x : Reg) (sub : Byte) :
    (encodeXF d1 x sub).toNat = d1.toNat * 4096 + x.val * 256 + sub.toNat := encodeXI_toNat d1 x sub

theorem encodeXY_toNat (d1 : BitVec 4) (x y : Reg) (d4 : BitVec 4) :
    (encodeXY d1 x y d4).toNat = d1.toNat * 4096 + x.val * 256 + y.val * 16 + d4.toNat := by
  have h : (encodeXY d1 x y d4).toNat = (d1 ++ nibble x ++ nibble y ++ d4).toNat := rfl
  rw [h, append_toNat, append_toNat, append_toNat, nibble_toNat, nibble_toNat]
  omega

/-! The fields of an encoded word. -/

section fields
variable (d1 : BitVec 4) (x y : Reg) (d4 : BitVec 4) (nn : Byte) (nnn : Addr12)

@[simp] theorem fieldD1_encodeA : fieldD1 (encodeA d1 nnn) = d1 := by
  apply BitVec.eq_of_toNat_eq
  have := nnn.isLt
  rw [fieldD1_toNat, encodeA_toNat]
  omega

@[simp] theorem fieldNNN_encodeA : fieldNNN (encodeA d1 nnn) = nnn := by
  apply BitVec.eq_of_toNat_eq
  have := nnn.isLt
  rw [fieldNNN_toNat, encodeA_toNat]
  omega

@[simp] theorem fieldD1_encodeXI : fieldD1 (encodeXI d1 x nn) = d1 := by
  apply BitVec.eq_of_toNat_eq
  have := nn.isLt
  rw [fieldD1_toNat, encodeXI_toNat]
  omega

@[simp] theorem fieldX_encodeXI : fieldX (encodeXI d1 x nn) = x := by
  apply Fin.ext
  have := nn.isLt
  rw [fieldX_val, encodeXI_toNat]
  omega

@[simp] theorem fieldNN_encodeXI : fieldNN (encodeXI d1 x nn) = nn := by
  apply BitVec.eq_of_toNat_eq
  have := nn.isLt
  rw [fieldNN_toNat, encodeXI_toNat]
  omega

@[simp] theorem fieldD1_encodeXF : fieldD1 (encodeXF d1 x nn) = d1 := fieldD1_encodeXI d1 x nn

@[simp] theorem fieldX_encodeXF : fieldX (encodeXF d1 x nn) = x := fieldX_encodeXI d1 x nn

@[simp] theorem fieldNN_encodeXF : fieldNN (encodeXF d1 x nn) = nn := fieldNN_encodeXI d1 x nn

@[simp] theorem fieldD1_encodeXY : fieldD1 (encodeXY d1 x y d4) = d1 := by
  apply BitVec.eq_of_toNat_eq
  have := d4.isLt
  rw [fieldD1_toNat, encodeXY_toNat]
  omega

@[simp] theorem fieldX_encodeXY : fieldX (encodeXY d1 x y d4) = x := by
  apply Fin.ext
  have := d4.isLt
  rw [fieldX_val, encodeXY_toNat]
  omega

@[simp] theorem fieldY_encodeXY : fieldY (encodeXY d1 x y d4) = y := by
  apply Fin.ext
  have := d4.isLt
  rw [fieldY_val, encodeXY_toNat]
  omega

@[simp] theorem fieldD4_encodeXY : fieldD4 (encodeXY d1 x y d4) = d4 := by
  apply BitVec.eq_of_toNat_eq
  have := d4.isLt
  rw [fieldD4_toNat, encodeXY_toNat]
  omega

end fields

/-! The masks of the opcode table (30_encoding.md R97), as arithmetic. -/

theorem mask_F000_toNat (w : Word) : (w &&& 0xF000#16).toNat = w.toNat / 4096 * 4096 := by
  have hw := w.isLt
  have h : w.toNat &&& 15 * 2 ^ 12 = (w.toNat / 2 ^ 12 &&& 15) * 2 ^ 12 := by
    apply Nat.eq_of_testBit_eq
    intro i
    simp only [Nat.testBit_and, Nat.testBit_mul_two_pow, Nat.testBit_div_two_pow]
    by_cases hi : 12 ≤ i <;> simp [hi]
  rw [BitVec.toNat_and, show (0xF000#16).toNat = 15 * 2 ^ 12 from rfl, h,
    show (15 : Nat) = 2 ^ 4 - 1 from rfl, Nat.and_two_pow_sub_one_eq_mod]
  omega

/-- A mask with the low `k` bits as well adds the low `k` bits. -/
theorem mask_low_toNat (w : Word) (k : Nat) (hk : k ≤ 12) :
    w.toNat &&& (0xF000 ||| (2 ^ k - 1)) = w.toNat / 4096 * 4096 + w.toNat % 2 ^ k := by
  have h := mask_F000_toNat w
  rw [BitVec.toNat_and, show (0xF000#16).toNat = 0xF000 from rfl] at h
  have hlt : w.toNat % 2 ^ k < 2 ^ 12 :=
    lt_of_lt_of_le (Nat.mod_lt _ (Nat.two_pow_pos k)) (Nat.pow_le_pow_right (by decide) hk)
  rw [Nat.and_or_distrib_left, h, Nat.and_two_pow_sub_one_eq_mod,
    show w.toNat / 4096 * 4096 = (w.toNat / 4096) <<< 12 by rw [Nat.shiftLeft_eq],
    ← Nat.shiftLeft_add_eq_or_of_lt hlt]

theorem mask_F00F_toNat (w : Word) :
    (w &&& 0xF00F#16).toNat = w.toNat / 4096 * 4096 + w.toNat % 16 := mask_low_toNat w 4 (by decide)

theorem mask_F0FF_toNat (w : Word) :
    (w &&& 0xF0FF#16).toNat = w.toNat / 4096 * 4096 + w.toNat % 256 := mask_low_toNat w 8 (by decide)

theorem mask_FFFF (w : Word) : w &&& 0xFFFF#16 = w := BitVec.and_allOnes

/-! When a row of each mask selects a word. -/

theorem selects_F000 {name : String} {c w : Word} :
    (OpcodeRow.mk name 0xF000 c).selects w = true ↔ w.toNat / 4096 * 4096 = c.toNat := by
  rw [← mask_F000_toNat, BitVec.toNat_inj]
  simp [OpcodeRow.selects]

theorem selects_F00F {name : String} {c w : Word} :
    (OpcodeRow.mk name 0xF00F c).selects w = true ↔ w.toNat / 4096 * 4096 + w.toNat % 16 = c.toNat := by
  rw [← mask_F00F_toNat, BitVec.toNat_inj]
  simp [OpcodeRow.selects]

theorem selects_F0FF {name : String} {c w : Word} :
    (OpcodeRow.mk name 0xF0FF c).selects w = true ↔ w.toNat / 4096 * 4096 + w.toNat % 256 = c.toNat := by
  rw [← mask_F0FF_toNat, BitVec.toNat_inj]
  simp [OpcodeRow.selects]

theorem selects_FFFF {name : String} {c w : Word} :
    (OpcodeRow.mk name 0xFFFF c).selects w = true ↔ w = c := by
  show (w &&& 0xFFFF#16 == c) = true ↔ w = c
  rw [mask_FFFF, beq_iff_eq]

end Sys2Proof
end

