-- ==== Sys2Proof/Laws/State.lean ====
section
/-! SUPPORT. One lemma per field per named update of the state, so that no proof unfolds a record update. -/

namespace Sys2Proof.Machine

variable (s : State)

/-! `State.setV` -/

@[simp] theorem setV_v (vs : Vector Byte 16) : (s.setV vs).v = vs := rfl
@[simp] theorem setV_i (vs : Vector Byte 16) : (s.setV vs).i = s.i := rfl
@[simp] theorem setV_pc (vs : Vector Byte 16) : (s.setV vs).pc = s.pc := rfl
@[simp] theorem setV_sp (vs : Vector Byte 16) : (s.setV vs).sp = s.sp := rfl
@[simp] theorem setV_stack (vs : Vector Byte 16) : (s.setV vs).stack = s.stack := rfl
@[simp] theorem setV_mem (vs : Vector Byte 16) : (s.setV vs).mem = s.mem := rfl
@[simp] theorem setV_disp (vs : Vector Byte 16) : (s.setV vs).disp = s.disp := rfl
@[simp] theorem setV_key (vs : Vector Byte 16) : (s.setV vs).key = s.key := rfl
@[simp] theorem setV_dt (vs : Vector Byte 16) : (s.setV vs).dt = s.dt := rfl
@[simp] theorem setV_st (vs : Vector Byte 16) : (s.setV vs).st = s.st := rfl
@[simp] theorem setV_halt (vs : Vector Byte 16) : (s.setV vs).halt = s.halt := rfl
@[simp] theorem setV_cause (vs : Vector Byte 16) : (s.setV vs).cause = s.cause := rfl
@[simp] theorem setV_fpc (vs : Vector Byte 16) : (s.setV vs).fpc = s.fpc := rfl
@[simp] theorem setV_fword (vs : Vector Byte 16) : (s.setV vs).fword = s.fword := rfl
@[simp] theorem setV_fval (vs : Vector Byte 16) : (s.setV vs).fval = s.fval := rfl
@[simp] theorem setV_rndCount (vs : Vector Byte 16) : (s.setV vs).rndCount = s.rndCount := rfl

/-! `State.writeV` -/

@[simp] theorem writeV_v (r : Reg) (b : Byte) : (s.writeV r b).v = s.v.set r b := rfl
@[simp] theorem writeV_i (r : Reg) (b : Byte) : (s.writeV r b).i = s.i := rfl
@[simp] theorem writeV_pc (r : Reg) (b : Byte) : (s.writeV r b).pc = s.pc := rfl
@[simp] theorem writeV_sp (r : Reg) (b : Byte) : (s.writeV r b).sp = s.sp := rfl
@[simp] theorem writeV_stack (r : Reg) (b : Byte) : (s.writeV r b).stack = s.stack := rfl
@[simp] theorem writeV_mem (r : Reg) (b : Byte) : (s.writeV r b).mem = s.mem := rfl
@[simp] theorem writeV_disp (r : Reg) (b : Byte) : (s.writeV r b).disp = s.disp := rfl
@[simp] theorem writeV_key (r : Reg) (b : Byte) : (s.writeV r b).key = s.key := rfl
@[simp] theorem writeV_dt (r : Reg) (b : Byte) : (s.writeV r b).dt = s.dt := rfl
@[simp] theorem writeV_st (r : Reg) (b : Byte) : (s.writeV r b).st = s.st := rfl
@[simp] theorem writeV_halt (r : Reg) (b : Byte) : (s.writeV r b).halt = s.halt := rfl
@[simp] theorem writeV_cause (r : Reg) (b : Byte) : (s.writeV r b).cause = s.cause := rfl
@[simp] theorem writeV_fpc (r : Reg) (b : Byte) : (s.writeV r b).fpc = s.fpc := rfl
@[simp] theorem writeV_fword (r : Reg) (b : Byte) : (s.writeV r b).fword = s.fword := rfl
@[simp] theorem writeV_fval (r : Reg) (b : Byte) : (s.writeV r b).fval = s.fval := rfl
@[simp] theorem writeV_rndCount (r : Reg) (b : Byte) : (s.writeV r b).rndCount = s.rndCount := rfl

/-! `State.setI` -/

@[simp] theorem setI_v (a : Word) : (s.setI a).v = s.v := rfl
@[simp] theorem setI_i (a : Word) : (s.setI a).i = a := rfl
@[simp] theorem setI_pc (a : Word) : (s.setI a).pc = s.pc := rfl
@[simp] theorem setI_sp (a : Word) : (s.setI a).sp = s.sp := rfl
@[simp] theorem setI_stack (a : Word) : (s.setI a).stack = s.stack := rfl
@[simp] theorem setI_mem (a : Word) : (s.setI a).mem = s.mem := rfl
@[simp] theorem setI_disp (a : Word) : (s.setI a).disp = s.disp := rfl
@[simp] theorem setI_key (a : Word) : (s.setI a).key = s.key := rfl
@[simp] theorem setI_dt (a : Word) : (s.setI a).dt = s.dt := rfl
@[simp] theorem setI_st (a : Word) : (s.setI a).st = s.st := rfl
@[simp] theorem setI_halt (a : Word) : (s.setI a).halt = s.halt := rfl
@[simp] theorem setI_cause (a : Word) : (s.setI a).cause = s.cause := rfl
@[simp] theorem setI_fpc (a : Word) : (s.setI a).fpc = s.fpc := rfl
@[simp] theorem setI_fword (a : Word) : (s.setI a).fword = s.fword := rfl
@[simp] theorem setI_fval (a : Word) : (s.setI a).fval = s.fval := rfl
@[simp] theorem setI_rndCount (a : Word) : (s.setI a).rndCount = s.rndCount := rfl

/-! `State.setPc` -/

@[simp] theorem setPc_v (a : Word) : (s.setPc a).v = s.v := rfl
@[simp] theorem setPc_i (a : Word) : (s.setPc a).i = s.i := rfl
@[simp] theorem setPc_pc (a : Word) : (s.setPc a).pc = a := rfl
@[simp] theorem setPc_sp (a : Word) : (s.setPc a).sp = s.sp := rfl
@[simp] theorem setPc_stack (a : Word) : (s.setPc a).stack = s.stack := rfl
@[simp] theorem setPc_mem (a : Word) : (s.setPc a).mem = s.mem := rfl
@[simp] theorem setPc_disp (a : Word) : (s.setPc a).disp = s.disp := rfl
@[simp] theorem setPc_key (a : Word) : (s.setPc a).key = s.key := rfl
@[simp] theorem setPc_dt (a : Word) : (s.setPc a).dt = s.dt := rfl
@[simp] theorem setPc_st (a : Word) : (s.setPc a).st = s.st := rfl
@[simp] theorem setPc_halt (a : Word) : (s.setPc a).halt = s.halt := rfl
@[simp] theorem setPc_cause (a : Word) : (s.setPc a).cause = s.cause := rfl
@[simp] theorem setPc_fpc (a : Word) : (s.setPc a).fpc = s.fpc := rfl
@[simp] theorem setPc_fword (a : Word) : (s.setPc a).fword = s.fword := rfl
@[simp] theorem setPc_fval (a : Word) : (s.setPc a).fval = s.fval := rfl
@[simp] theorem setPc_rndCount (a : Word) : (s.setPc a).rndCount = s.rndCount := rfl

/-! `State.advance` -/

@[simp] theorem advance_v : s.advance.v = s.v := rfl
@[simp] theorem advance_i : s.advance.i = s.i := rfl
@[simp] theorem advance_pc : s.advance.pc = s.pc + 2 := rfl
@[simp] theorem advance_sp : s.advance.sp = s.sp := rfl
@[simp] theorem advance_stack : s.advance.stack = s.stack := rfl
@[simp] theorem advance_mem : s.advance.mem = s.mem := rfl
@[simp] theorem advance_disp : s.advance.disp = s.disp := rfl
@[simp] theorem advance_key : s.advance.key = s.key := rfl
@[simp] theorem advance_dt : s.advance.dt = s.dt := rfl
@[simp] theorem advance_st : s.advance.st = s.st := rfl
@[simp] theorem advance_halt : s.advance.halt = s.halt := rfl
@[simp] theorem advance_cause : s.advance.cause = s.cause := rfl
@[simp] theorem advance_fpc : s.advance.fpc = s.fpc := rfl
@[simp] theorem advance_fword : s.advance.fword = s.fword := rfl
@[simp] theorem advance_fval : s.advance.fval = s.fval := rfl
@[simp] theorem advance_rndCount : s.advance.rndCount = s.rndCount := rfl

/-! `State.setDt` -/

@[simp] theorem setDt_v (b : Byte) : (s.setDt b).v = s.v := rfl
@[simp] theorem setDt_i (b : Byte) : (s.setDt b).i = s.i := rfl
@[simp] theorem setDt_pc (b : Byte) : (s.setDt b).pc = s.pc := rfl
@[simp] theorem setDt_sp (b : Byte) : (s.setDt b).sp = s.sp := rfl
@[simp] theorem setDt_stack (b : Byte) : (s.setDt b).stack = s.stack := rfl
@[simp] theorem setDt_mem (b : Byte) : (s.setDt b).mem = s.mem := rfl
@[simp] theorem setDt_disp (b : Byte) : (s.setDt b).disp = s.disp := rfl
@[simp] theorem setDt_key (b : Byte) : (s.setDt b).key = s.key := rfl
@[simp] theorem setDt_dt (b : Byte) : (s.setDt b).dt = b := rfl
@[simp] theorem setDt_st (b : Byte) : (s.setDt b).st = s.st := rfl
@[simp] theorem setDt_halt (b : Byte) : (s.setDt b).halt = s.halt := rfl
@[simp] theorem setDt_cause (b : Byte) : (s.setDt b).cause = s.cause := rfl
@[simp] theorem setDt_fpc (b : Byte) : (s.setDt b).fpc = s.fpc := rfl
@[simp] theorem setDt_fword (b : Byte) : (s.setDt b).fword = s.fword := rfl
@[simp] theorem setDt_fval (b : Byte) : (s.setDt b).fval = s.fval := rfl
@[simp] theorem setDt_rndCount (b : Byte) : (s.setDt b).rndCount = s.rndCount := rfl

/-! `State.setSt` -/

@[simp] theorem setSt_v (b : Byte) : (s.setSt b).v = s.v := rfl
@[simp] theorem setSt_i (b : Byte) : (s.setSt b).i = s.i := rfl
@[simp] theorem setSt_pc (b : Byte) : (s.setSt b).pc = s.pc := rfl
@[simp] theorem setSt_sp (b : Byte) : (s.setSt b).sp = s.sp := rfl
@[simp] theorem setSt_stack (b : Byte) : (s.setSt b).stack = s.stack := rfl
@[simp] theorem setSt_mem (b : Byte) : (s.setSt b).mem = s.mem := rfl
@[simp] theorem setSt_disp (b : Byte) : (s.setSt b).disp = s.disp := rfl
@[simp] theorem setSt_key (b : Byte) : (s.setSt b).key = s.key := rfl
@[simp] theorem setSt_dt (b : Byte) : (s.setSt b).dt = s.dt := rfl
@[simp] theorem setSt_st (b : Byte) : (s.setSt b).st = b := rfl
@[simp] theorem setSt_halt (b : Byte) : (s.setSt b).halt = s.halt := rfl
@[simp] theorem setSt_cause (b : Byte) : (s.setSt b).cause = s.cause := rfl
@[simp] theorem setSt_fpc (b : Byte) : (s.setSt b).fpc = s.fpc := rfl
@[simp] theorem setSt_fword (b : Byte) : (s.setSt b).fword = s.fword := rfl
@[simp] theorem setSt_fval (b : Byte) : (s.setSt b).fval = s.fval := rfl
@[simp] theorem setSt_rndCount (b : Byte) : (s.setSt b).rndCount = s.rndCount := rfl

/-! `State.setMem` -/

@[simp] theorem setMem_v (m : Memory) : (s.setMem m).v = s.v := rfl
@[simp] theorem setMem_i (m : Memory) : (s.setMem m).i = s.i := rfl
@[simp] theorem setMem_pc (m : Memory) : (s.setMem m).pc = s.pc := rfl
@[simp] theorem setMem_sp (m : Memory) : (s.setMem m).sp = s.sp := rfl
@[simp] theorem setMem_stack (m : Memory) : (s.setMem m).stack = s.stack := rfl
@[simp] theorem setMem_mem (m : Memory) : (s.setMem m).mem = m := rfl
@[simp] theorem setMem_disp (m : Memory) : (s.setMem m).disp = s.disp := rfl
@[simp] theorem setMem_key (m : Memory) : (s.setMem m).key = s.key := rfl
@[simp] theorem setMem_dt (m : Memory) : (s.setMem m).dt = s.dt := rfl
@[simp] theorem setMem_st (m : Memory) : (s.setMem m).st = s.st := rfl
@[simp] theorem setMem_halt (m : Memory) : (s.setMem m).halt = s.halt := rfl
@[simp] theorem setMem_cause (m : Memory) : (s.setMem m).cause = s.cause := rfl
@[simp] theorem setMem_fpc (m : Memory) : (s.setMem m).fpc = s.fpc := rfl
@[simp] theorem setMem_fword (m : Memory) : (s.setMem m).fword = s.fword := rfl
@[simp] theorem setMem_fval (m : Memory) : (s.setMem m).fval = s.fval := rfl
@[simp] theorem setMem_rndCount (m : Memory) : (s.setMem m).rndCount = s.rndCount := rfl

/-! `State.setDisp` -/

@[simp] theorem setDisp_v (d : Vector Bool 2048) : (s.setDisp d).v = s.v := rfl
@[simp] theorem setDisp_i (d : Vector Bool 2048) : (s.setDisp d).i = s.i := rfl
@[simp] theorem setDisp_pc (d : Vector Bool 2048) : (s.setDisp d).pc = s.pc := rfl
@[simp] theorem setDisp_sp (d : Vector Bool 2048) : (s.setDisp d).sp = s.sp := rfl
@[simp] theorem setDisp_stack (d : Vector Bool 2048) : (s.setDisp d).stack = s.stack := rfl
@[simp] theorem setDisp_mem (d : Vector Bool 2048) : (s.setDisp d).mem = s.mem := rfl
@[simp] theorem setDisp_disp (d : Vector Bool 2048) : (s.setDisp d).disp = d := rfl
@[simp] theorem setDisp_key (d : Vector Bool 2048) : (s.setDisp d).key = s.key := rfl
@[simp] theorem setDisp_dt (d : Vector Bool 2048) : (s.setDisp d).dt = s.dt := rfl
@[simp] theorem setDisp_st (d : Vector Bool 2048) : (s.setDisp d).st = s.st := rfl
@[simp] theorem setDisp_halt (d : Vector Bool 2048) : (s.setDisp d).halt = s.halt := rfl
@[simp] theorem setDisp_cause (d : Vector Bool 2048) : (s.setDisp d).cause = s.cause := rfl
@[simp] theorem setDisp_fpc (d : Vector Bool 2048) : (s.setDisp d).fpc = s.fpc := rfl
@[simp] theorem setDisp_fword (d : Vector Bool 2048) : (s.setDisp d).fword = s.fword := rfl
@[simp] theorem setDisp_fval (d : Vector Bool 2048) : (s.setDisp d).fval = s.fval := rfl
@[simp] theorem setDisp_rndCount (d : Vector Bool 2048) : (s.setDisp d).rndCount = s.rndCount := rfl

/-! `State.setKey` -/

@[simp] theorem setKey_v (k : Vector Bool 16) : (s.setKey k).v = s.v := rfl
@[simp] theorem setKey_i (k : Vector Bool 16) : (s.setKey k).i = s.i := rfl
@[simp] theorem setKey_pc (k : Vector Bool 16) : (s.setKey k).pc = s.pc := rfl
@[simp] theorem setKey_sp (k : Vector Bool 16) : (s.setKey k).sp = s.sp := rfl
@[simp] theorem setKey_stack (k : Vector Bool 16) : (s.setKey k).stack = s.stack := rfl
@[simp] theorem setKey_mem (k : Vector Bool 16) : (s.setKey k).mem = s.mem := rfl
@[simp] theorem setKey_disp (k : Vector Bool 16) : (s.setKey k).disp = s.disp := rfl
@[simp] theorem setKey_key (k : Vector Bool 16) : (s.setKey k).key = k := rfl
@[simp] theorem setKey_dt (k : Vector Bool 16) : (s.setKey k).dt = s.dt := rfl
@[simp] theorem setKey_st (k : Vector Bool 16) : (s.setKey k).st = s.st := rfl
@[simp] theorem setKey_halt (k : Vector Bool 16) : (s.setKey k).halt = s.halt := rfl
@[simp] theorem setKey_cause (k : Vector Bool 16) : (s.setKey k).cause = s.cause := rfl
@[simp] theorem setKey_fpc (k : Vector Bool 16) : (s.setKey k).fpc = s.fpc := rfl
@[simp] theorem setKey_fword (k : Vector Bool 16) : (s.setKey k).fword = s.fword := rfl
@[simp] theorem setKey_fval (k : Vector Bool 16) : (s.setKey k).fval = s.fval := rfl
@[simp] theorem setKey_rndCount (k : Vector Bool 16) : (s.setKey k).rndCount = s.rndCount := rfl

/-! `State.countRnd` -/

@[simp] theorem countRnd_v : s.countRnd.v = s.v := rfl
@[simp] theorem countRnd_i : s.countRnd.i = s.i := rfl
@[simp] theorem countRnd_pc : s.countRnd.pc = s.pc := rfl
@[simp] theorem countRnd_sp : s.countRnd.sp = s.sp := rfl
@[simp] theorem countRnd_stack : s.countRnd.stack = s.stack := rfl
@[simp] theorem countRnd_mem : s.countRnd.mem = s.mem := rfl
@[simp] theorem countRnd_disp : s.countRnd.disp = s.disp := rfl
@[simp] theorem countRnd_key : s.countRnd.key = s.key := rfl
@[simp] theorem countRnd_dt : s.countRnd.dt = s.dt := rfl
@[simp] theorem countRnd_st : s.countRnd.st = s.st := rfl
@[simp] theorem countRnd_halt : s.countRnd.halt = s.halt := rfl
@[simp] theorem countRnd_cause : s.countRnd.cause = s.cause := rfl
@[simp] theorem countRnd_fpc : s.countRnd.fpc = s.fpc := rfl
@[simp] theorem countRnd_fword : s.countRnd.fword = s.fword := rfl
@[simp] theorem countRnd_fval : s.countRnd.fval = s.fval := rfl
@[simp] theorem countRnd_rndCount : s.countRnd.rndCount = s.rndCount + 1 := rfl

/-! `State.setStack` -/

@[simp] theorem setStack_v (slots : Vector Word 16) (p : Fin 17) : (s.setStack slots p).v = s.v := rfl
@[simp] theorem setStack_i (slots : Vector Word 16) (p : Fin 17) : (s.setStack slots p).i = s.i := rfl
@[simp] theorem setStack_pc (slots : Vector Word 16) (p : Fin 17) : (s.setStack slots p).pc = s.pc := rfl
@[simp] theorem setStack_sp (slots : Vector Word 16) (p : Fin 17) : (s.setStack slots p).sp = p := rfl
@[simp] theorem setStack_stack (slots : Vector Word 16) (p : Fin 17) : (s.setStack slots p).stack = slots := rfl
@[simp] theorem setStack_mem (slots : Vector Word 16) (p : Fin 17) : (s.setStack slots p).mem = s.mem := rfl
@[simp] theorem setStack_disp (slots : Vector Word 16) (p : Fin 17) : (s.setStack slots p).disp = s.disp := rfl
@[simp] theorem setStack_key (slots : Vector Word 16) (p : Fin 17) : (s.setStack slots p).key = s.key := rfl
@[simp] theorem setStack_dt (slots : Vector Word 16) (p : Fin 17) : (s.setStack slots p).dt = s.dt := rfl
@[simp] theorem setStack_st (slots : Vector Word 16) (p : Fin 17) : (s.setStack slots p).st = s.st := rfl
@[simp] theorem setStack_halt (slots : Vector Word 16) (p : Fin 17) : (s.setStack slots p).halt = s.halt := rfl
@[simp] theorem setStack_cause (slots : Vector Word 16) (p : Fin 17) : (s.setStack slots p).cause = s.cause := rfl
@[simp] theorem setStack_fpc (slots : Vector Word 16) (p : Fin 17) : (s.setStack slots p).fpc = s.fpc := rfl
@[simp] theorem setStack_fword (slots : Vector Word 16) (p : Fin 17) : (s.setStack slots p).fword = s.fword := rfl
@[simp] theorem setStack_fval (slots : Vector Word 16) (p : Fin 17) : (s.setStack slots p).fval = s.fval := rfl
@[simp] theorem setStack_rndCount (slots : Vector Word 16) (p : Fin 17) : (s.setStack slots p).rndCount = s.rndCount := rfl

/-! `State.takeFault` -/

@[simp] theorem takeFault_v (c : Cause) (w u : Word) : (s.takeFault c w u).v = s.v := rfl
@[simp] theorem takeFault_i (c : Cause) (w u : Word) : (s.takeFault c w u).i = s.i := rfl
@[simp] theorem takeFault_pc (c : Cause) (w u : Word) : (s.takeFault c w u).pc = s.pc := rfl
@[simp] theorem takeFault_sp (c : Cause) (w u : Word) : (s.takeFault c w u).sp = s.sp := rfl
@[simp] theorem takeFault_stack (c : Cause) (w u : Word) : (s.takeFault c w u).stack = s.stack := rfl
@[simp] theorem takeFault_mem (c : Cause) (w u : Word) : (s.takeFault c w u).mem = s.mem := rfl
@[simp] theorem takeFault_disp (c : Cause) (w u : Word) : (s.takeFault c w u).disp = s.disp := rfl
@[simp] theorem takeFault_key (c : Cause) (w u : Word) : (s.takeFault c w u).key = s.key := rfl
@[simp] theorem takeFault_dt (c : Cause) (w u : Word) : (s.takeFault c w u).dt = s.dt := rfl
@[simp] theorem takeFault_st (c : Cause) (w u : Word) : (s.takeFault c w u).st = s.st := rfl
@[simp] theorem takeFault_halt (c : Cause) (w u : Word) : (s.takeFault c w u).halt = true := rfl
@[simp] theorem takeFault_cause (c : Cause) (w u : Word) : (s.takeFault c w u).cause = c := rfl
@[simp] theorem takeFault_fpc (c : Cause) (w u : Word) : (s.takeFault c w u).fpc = s.pc := rfl
@[simp] theorem takeFault_fword (c : Cause) (w u : Word) : (s.takeFault c w u).fword = w := rfl
@[simp] theorem takeFault_fval (c : Cause) (w u : Word) : (s.takeFault c w u).fval = u := rfl
@[simp] theorem takeFault_rndCount (c : Cause) (w u : Word) : (s.takeFault c w u).rndCount = s.rndCount := rfl

/-! `State.skipIf` touches PC alone. -/

@[simp] theorem skipIf_pc (c : Bool) : (s.skipIf c).pc = if c then s.pc + 2 else s.pc := by
  cases c <;> rfl
@[simp] theorem skipIf_v (c : Bool) : (s.skipIf c).v = s.v := by cases c <;> rfl
@[simp] theorem skipIf_i (c : Bool) : (s.skipIf c).i = s.i := by cases c <;> rfl
@[simp] theorem skipIf_sp (c : Bool) : (s.skipIf c).sp = s.sp := by cases c <;> rfl
@[simp] theorem skipIf_stack (c : Bool) : (s.skipIf c).stack = s.stack := by cases c <;> rfl
@[simp] theorem skipIf_mem (c : Bool) : (s.skipIf c).mem = s.mem := by cases c <;> rfl
@[simp] theorem skipIf_disp (c : Bool) : (s.skipIf c).disp = s.disp := by cases c <;> rfl
@[simp] theorem skipIf_key (c : Bool) : (s.skipIf c).key = s.key := by cases c <;> rfl
@[simp] theorem skipIf_dt (c : Bool) : (s.skipIf c).dt = s.dt := by cases c <;> rfl
@[simp] theorem skipIf_st (c : Bool) : (s.skipIf c).st = s.st := by cases c <;> rfl
@[simp] theorem skipIf_halt (c : Bool) : (s.skipIf c).halt = s.halt := by cases c <;> rfl
@[simp] theorem skipIf_cause (c : Bool) : (s.skipIf c).cause = s.cause := by cases c <;> rfl
@[simp] theorem skipIf_fpc (c : Bool) : (s.skipIf c).fpc = s.fpc := by cases c <;> rfl
@[simp] theorem skipIf_fword (c : Bool) : (s.skipIf c).fword = s.fword := by cases c <;> rfl
@[simp] theorem skipIf_fval (c : Bool) : (s.skipIf c).fval = s.fval := by cases c <;> rfl
@[simp] theorem skipIf_rndCount (c : Bool) : (s.skipIf c).rndCount = s.rndCount := by cases c <;> rfl

/-! Reading a register after an update. -/

theorem readV_eq (r : Reg) : s.readV r = s.v[r] := rfl

@[simp] theorem readV_writeV (r q : Reg) (b : Byte) :
    (s.writeV r b).readV q = if r = q then b else s.readV q := by
  simp [State.readV, State.writeV, Vector.getElem_set, Fin.ext_iff]

@[simp] theorem readV_setV (vs : Vector Byte 16) (q : Reg) : (s.setV vs).readV q = vs[q] := rfl
@[simp] theorem readV_setI (a : Word) (q : Reg) : (s.setI a).readV q = s.readV q := rfl
@[simp] theorem readV_setPc (a : Word) (q : Reg) : (s.setPc a).readV q = s.readV q := rfl
@[simp] theorem readV_advance (q : Reg) : s.advance.readV q = s.readV q := rfl
@[simp] theorem readV_setDt (b : Byte) (q : Reg) : (s.setDt b).readV q = s.readV q := rfl
@[simp] theorem readV_setSt (b : Byte) (q : Reg) : (s.setSt b).readV q = s.readV q := rfl
@[simp] theorem readV_setMem (m : Memory) (q : Reg) : (s.setMem m).readV q = s.readV q := rfl
@[simp] theorem readV_setDisp (d : Vector Bool 2048) (q : Reg) : (s.setDisp d).readV q = s.readV q := rfl
@[simp] theorem readV_setKey (k : Vector Bool 16) (q : Reg) : (s.setKey k).readV q = s.readV q := rfl
@[simp] theorem readV_countRnd (q : Reg) : s.countRnd.readV q = s.readV q := rfl
@[simp] theorem readV_setStack (slots : Vector Word 16) (p : Fin 17) (q : Reg) : (s.setStack slots p).readV q = s.readV q := rfl
@[simp] theorem readV_takeFault (c : Cause) (w u : Word) (q : Reg) : (s.takeFault c w u).readV q = s.readV q := rfl
@[simp] theorem readV_skipIf (c : Bool) (q : Reg) : (s.skipIf c).readV q = s.readV q := by cases c <;> rfl

/-- Two states with the same registers, read one by one, have the same register file. -/
theorem v_ext {s t : State} (h : ∀ q, t.readV q = s.readV q) : t.v = s.v := by
  apply Vector.ext
  intro k hk
  exact h ⟨k, hk⟩

end Sys2Proof.Machine
end

