-- ==== Sys2Proof/Laws/Memory.lean ====
section
/-! SUPPORT. The laws of memory: what a read gives after a write, and that every operation keeps the
canonical form `Memory.wf`. -/

namespace Sys2Proof.Machine

/-! What is listed after one cell changes. -/

theorem lookup_insertCell (m : Memory) (a b : Nat) (v : Byte) :
    (m.insertCell a v).lookup b = if a = b then some v else m.lookup b := by
  induction m with
  | nil => rfl
  | cons cell rest ih =>
    obtain ⟨c, u⟩ := cell
    simp only [Memory.insertCell]
    split
    · rfl
    · split
      · subst_vars
        by_cases hb : c = b <;> simp [Memory.lookup, hb]
      · by_cases hb : c = b
        · subst hb
          have : a ≠ c := by omega
          simp [Memory.lookup, this]
        · simp [Memory.lookup, hb, ih]

theorem wfFrom_lookup_below {m : Memory} {lo b : Nat} (h : m.wfFrom lo = true) (hb : b < lo) :
    m.lookup b = none := by
  induction m generalizing lo with
  | nil => rfl
  | cons cell rest ih =>
    obtain ⟨c, u⟩ := cell
    simp only [Memory.wfFrom, Bool.and_eq_true, decide_eq_true_eq] at h
    have hc : c ≠ b := by omega
    simp only [Memory.lookup, hc, if_false]
    exact ih h.2 (by omega)

theorem lookup_removeCell {m : Memory} {lo : Nat} (h : m.wfFrom lo = true) (a b : Nat) :
    (m.removeCell a).lookup b = if a = b then none else m.lookup b := by
  induction m generalizing lo with
  | nil => simp [Memory.removeCell, Memory.lookup]
  | cons cell rest ih =>
    obtain ⟨c, u⟩ := cell
    simp only [Memory.wfFrom, Bool.and_eq_true, decide_eq_true_eq] at h
    simp only [Memory.removeCell]
    split
    · subst_vars
      by_cases hb : c = b
      · subst hb
        simpa using wfFrom_lookup_below h.2 (Nat.lt_succ_self c)
      · simp [Memory.lookup, hb]
    · by_cases hb : c = b
      · subst hb
        have : a ≠ c := by omega
        simp [Memory.lookup, this]
      · simp [Memory.lookup, hb, ih h.2]

/-! Reads after writes. -/

/-- A read after a write: the byte written at its own address, every other address as before. -/
theorem read_write {m : Memory} (h : m.wf = true) (a b : Nat) (v : Byte) :
    (m.write a v).read b = if a = b then v else m.read b := by
  unfold Memory.write Memory.read
  split
  · rw [lookup_removeCell h]
    split <;> simp_all
  · rw [lookup_insertCell]
    split <;> rfl

theorem read_nil (a : Nat) : Memory.read [] a = Memory.background a := rfl

/-! The canonical form. -/

theorem wfFrom_mono {m : Memory} {lo lo' : Nat} (h : m.wfFrom lo = true) (hl : lo' ≤ lo) :
    m.wfFrom lo' = true := by
  cases m with
  | nil => rfl
  | cons cell rest =>
    simp only [Memory.wfFrom, Bool.and_eq_true, decide_eq_true_eq] at h ⊢
    exact ⟨⟨⟨by omega, h.1.1.2⟩, h.1.2⟩, h.2⟩

theorem wfFrom_insertCell {m : Memory} {lo a : Nat} {v : Byte} (h : m.wfFrom lo = true)
    (hlo : lo ≤ a) (ha : a ≤ 0xFFF) (hv : v ≠ Memory.background a) :
    (m.insertCell a v).wfFrom lo = true := by
  induction m generalizing lo with
  | nil => simp [Memory.insertCell, Memory.wfFrom, hlo, ha, hv]
  | cons cell rest ih =>
    obtain ⟨c, u⟩ := cell
    simp only [Memory.wfFrom, Bool.and_eq_true, decide_eq_true_eq] at h
    simp only [Memory.insertCell]
    split
    · simp only [Memory.wfFrom, Bool.and_eq_true, decide_eq_true_eq]
      exact ⟨⟨⟨hlo, ha⟩, hv⟩, ⟨⟨by omega, h.1.1.2⟩, h.1.2⟩, h.2⟩
    · split
      · subst_vars
        simp only [Memory.wfFrom, Bool.and_eq_true, decide_eq_true_eq]
        exact ⟨⟨⟨hlo, ha⟩, hv⟩, h.2⟩
      · simp only [Memory.wfFrom, Bool.and_eq_true, decide_eq_true_eq]
        exact ⟨h.1, ih h.2 (by omega)⟩

theorem wfFrom_removeCell {m : Memory} {lo a : Nat} (h : m.wfFrom lo = true) :
    (m.removeCell a).wfFrom lo = true := by
  induction m generalizing lo with
  | nil => rfl
  | cons cell rest ih =>
    obtain ⟨c, u⟩ := cell
    have h' := h
    simp only [Memory.wfFrom, Bool.and_eq_true, decide_eq_true_eq] at h'
    simp only [Memory.removeCell]
    split
    · exact wfFrom_mono h'.2 (by omega)
    · simp only [Memory.wfFrom, Bool.and_eq_true, decide_eq_true_eq]
      exact ⟨h'.1, ih h'.2⟩

/-- A write inside memory keeps the canonical form. -/
theorem wf_write {m : Memory} (h : m.wf = true) {a : Nat} (ha : a ≤ 0xFFF) (v : Byte) :
    (m.write a v).wf = true := by
  unfold Memory.write
  split
  · exact wfFrom_removeCell h
  · exact wfFrom_insertCell h (Nat.zero_le a) ha ‹_›

/-- Bytes written inside memory keep the canonical form. -/
theorem wf_writeBytes {m : Memory} (h : m.wf = true) {a : Nat} {bytes : List Byte}
    (ha : a + bytes.length ≤ 4096) : (m.writeBytes a bytes).wf = true := by
  induction bytes generalizing m a with
  | nil => exact h
  | cons v vs ih =>
    simp only [List.length_cons] at ha
    exact ih (wf_write h (by omega) v) (by omega)

/-- A read after several bytes are written: byte `b - a` of them inside their range, as before outside. -/
theorem read_writeBytes {m : Memory} (h : m.wf = true) {a : Nat} {bytes : List Byte}
    (ha : a + bytes.length ≤ 4096) (b : Nat) :
    (m.writeBytes a bytes).read b =
      if hb : a ≤ b ∧ b < a + bytes.length then bytes[b - a]'(by omega) else m.read b := by
  induction bytes generalizing m a with
  | nil =>
    have : ¬(a ≤ b ∧ b < a + ([] : List Byte).length) := by simp
    simp only [Memory.writeBytes, this, dif_neg, not_false_eq_true]
  | cons v vs ih =>
    simp only [List.length_cons] at ha ⊢
    simp only [Memory.writeBytes]
    rw [ih (wf_write h (by omega) v) (by omega), read_write h]
    by_cases hab : a = b
    · subst hab
      have h1 : ¬(a + 1 ≤ a ∧ a < a + 1 + vs.length) := by omega
      have h2 : a ≤ a ∧ a < a + (vs.length + 1) := by omega
      simp [h2]
    · by_cases hin : a + 1 ≤ b ∧ b < a + 1 + vs.length
      · have h2 : a ≤ b ∧ b < a + (vs.length + 1) := by omega
        have h3 : b - a = b - (a + 1) + 1 := by omega
        simp only [hin, h2, and_self, dif_pos, h3, List.getElem_cons_succ]
      · have h2 : ¬(a ≤ b ∧ b < a + (vs.length + 1)) := by omega
        rw [dif_neg hin, dif_neg h2, if_neg hab]

/-- The canonical form is canonical: memories that read alike are the same list. -/
theorem wf_ext {m n : Memory} (hm : m.wf = true) (hn : n.wf = true)
    (h : ∀ a, m.read a = n.read a) : m = n := by
  have key : ∀ (m n : Memory) (lo : Nat), m.wfFrom lo = true → n.wfFrom lo = true →
      (∀ a, m.read a = n.read a) → m = n := by
    intro m
    induction m with
    | nil =>
      intro n lo _ hn h
      cases n with
      | nil => rfl
      | cons cell rest =>
        obtain ⟨c, u⟩ := cell
        have hc := h c
        simp only [Memory.wfFrom, Bool.and_eq_true, decide_eq_true_eq] at hn
        simp only [Memory.read, Memory.lookup, Option.getD, if_true] at hc
        exact absurd hc.symm hn.1.2
    | cons cell rest ih =>
      obtain ⟨c, u⟩ := cell
      intro n lo hm hn h
      simp only [Memory.wfFrom, Bool.and_eq_true, decide_eq_true_eq] at hm
      cases n with
      | nil =>
        have hc := h c
        simp only [Memory.read, Memory.lookup, Option.getD, if_true] at hc
        exact absurd hc hm.1.2
      | cons cell' rest' =>
        obtain ⟨d, w⟩ := cell'
        simp only [Memory.wfFrom, Bool.and_eq_true, decide_eq_true_eq] at hn
        have hcd : c = d := by
          rcases Nat.lt_trichotomy c d with hlt | heq | hgt
          · have hc := h c
            have hn' : d ≠ c := by omega
            simp only [Memory.read, Memory.lookup, Option.getD, if_true, hn', if_false,
              wfFrom_lookup_below hn.2 (by omega : c < d + 1)] at hc
            exact absurd hc hm.1.2
          · exact heq
          · have hc := h d
            have hn' : c ≠ d := by omega
            simp only [Memory.read, Memory.lookup, Option.getD, if_true, hn', if_false,
              wfFrom_lookup_below hm.2 (by omega : d < c + 1)] at hc
            exact absurd hc.symm hn.1.2
        subst hcd
        have hu : u = w := by
          have hc := h c
          simpa only [Memory.read, Memory.lookup, Option.getD, if_true] using hc
        subst hu
        have hr : rest = rest' := by
          apply ih rest' (c + 1) hm.2 hn.2
          intro a
          by_cases hca : c = a
          · subst hca
            simp [Memory.read, wfFrom_lookup_below hm.2 (Nat.lt_succ_self c),
              wfFrom_lookup_below hn.2 (Nat.lt_succ_self c)]
          · have ha := h a
            simpa only [Memory.read, Memory.lookup, hca, if_false] using ha
        rw [hr]
  exact key m n 0 hm hn h

/-! Bounds. -/

theorem inRange_iff (a len : Nat) : inRange a len = true ↔ len = 0 ∨ a + len ≤ 4096 := by
  simp only [inRange, Bool.or_eq_true, beq_iff_eq, decide_eq_true_eq, Config.addrMax]
  omega

theorem outOfRangeValue_toNat (a : Word) : (outOfRangeValue a).toNat = max a.toNat 0x1000 := by
  have := a.isLt
  simp only [outOfRangeValue, BitVec.toNat_ofNat]
  omega

theorem readWord_toNat (m : Memory) (a : Nat) :
    (m.readWord a).toNat = (m.read a).toNat * 256 + (m.read (a + 1)).toNat := by
  have := (m.read (a + 1)).isLt
  simp only [Memory.readWord, wordOfBytes, BitVec.toNat_append]
  rw [← Nat.shiftLeft_add_eq_or_of_lt (by omega), Nat.shiftLeft_eq]

end Sys2Proof.Machine
end

