-- ==== Sys2Proof/Laws/Ops.lean ====
section
/-! SUPPORT. What each shared operation can do, said once. -/

namespace Sys2Proof.Machine

/-! The stack. -/

theorem push_eq_some {s t : State} {a : Word} :
    s.push a = some t ↔
      ∃ h : s.sp.val < 16, t = s.setStack (s.stack.set s.sp.val a) ⟨s.sp.val + 1, by omega⟩ := by
  unfold State.push
  split
  · rename_i h
    simp only [Option.some.injEq]
    exact ⟨fun e => ⟨h, e.symm⟩, fun ⟨_, e⟩ => e.symm⟩
  · rename_i h
    simp [h]

theorem push_eq_none {s : State} {a : Word} : s.push a = none ↔ s.sp.val = 16 := by
  have := s.sp.isLt
  unfold State.push
  split <;> simp <;> omega

theorem pop_eq_some {s t : State} {a : Word} :
    s.pop = some (a, t) ↔
      ∃ _ : s.sp.val ≠ 0, a = s.stack[s.sp.val - 1]'(by omega) ∧
        t = s.setStack s.stack ⟨s.sp.val - 1, by omega⟩ := by
  unfold State.pop
  split
  · rename_i h
    simp [h]
  · rename_i h
    simp only [Option.some.injEq, Prod.mk.injEq, h, ne_eq, not_false_eq_true, exists_true_left]
    exact ⟨fun ⟨h1, h2⟩ => ⟨h1.symm, h2.symm⟩, fun ⟨h1, h2⟩ => ⟨h1.symm, h2.symm⟩⟩

theorem pop_eq_none {s : State} : s.pop = none ↔ s.sp.val = 0 := by
  unfold State.pop
  split <;> simp_all

/-! The bounds check and fetch. -/

theorem guardAtI_inRange {s : State} {len : Nat} {w : Word} {done : State}
    (h : len = 0 ∨ s.i.toNat + len ≤ 4096) : s.guardAtI len w done = .next done := by
  simp only [State.guardAtI, (inRange_iff _ _).2 h, if_true]

theorem guardAtI_outOfRange {s : State} {len : Nat} {w : Word} {done : State}
    (h : ¬(len = 0 ∨ s.i.toNat + len ≤ 4096)) :
    s.guardAtI len w done = .next (s.takeFault .outOfBounds w (outOfRangeValue s.i)) := by
  have : inRange s.i.toNat len = false := by
    rw [Bool.eq_false_iff, ne_eq, inRange_iff]; exact h
  simp [State.guardAtI, this, State.raise]

theorem fetch_eq_some {s : State} (h : s.pc.toNat ≤ 0xFFE) :
    s.fetch = some (s.mem.readWord s.pc.toNat) := by
  simp only [State.fetch, (inRange_iff _ 2).2 (.inr (by omega : s.pc.toNat + 2 ≤ 4096)), if_true]

theorem fetch_eq_none {s : State} (h : ¬s.pc.toNat ≤ 0xFFE) : s.fetch = none := by
  have : inRange s.pc.toNat 2 = false := by
    rw [Bool.eq_false_iff, ne_eq, inRange_iff]; omega
  simp [State.fetch, this]

/-! Flag and result. -/

/-- A flag-writing ALU instruction changes V[X] to the result and, for X ≠ F, VF to the flag. -/
theorem readV_writeFlagAndResult (s : State) (x q : Reg) (flag result : Byte) :
    (s.writeFlagAndResult x flag result).readV q =
      if x = q then result else if vf = q then flag else s.readV q := by
  simp [State.writeFlagAndResult, xfPriority]

/-! It changes nothing but the registers. -/

section flagAndResult
variable (s : State) (x : Reg) (flag result : Byte)

@[simp] theorem writeFlagAndResult_i : (s.writeFlagAndResult x flag result).i = s.i := rfl
@[simp] theorem writeFlagAndResult_pc : (s.writeFlagAndResult x flag result).pc = s.pc := rfl
@[simp] theorem writeFlagAndResult_sp : (s.writeFlagAndResult x flag result).sp = s.sp := rfl
@[simp] theorem writeFlagAndResult_stack : (s.writeFlagAndResult x flag result).stack = s.stack := rfl
@[simp] theorem writeFlagAndResult_mem : (s.writeFlagAndResult x flag result).mem = s.mem := rfl
@[simp] theorem writeFlagAndResult_disp : (s.writeFlagAndResult x flag result).disp = s.disp := rfl
@[simp] theorem writeFlagAndResult_key : (s.writeFlagAndResult x flag result).key = s.key := rfl
@[simp] theorem writeFlagAndResult_dt : (s.writeFlagAndResult x flag result).dt = s.dt := rfl
@[simp] theorem writeFlagAndResult_st : (s.writeFlagAndResult x flag result).st = s.st := rfl
@[simp] theorem writeFlagAndResult_halt : (s.writeFlagAndResult x flag result).halt = s.halt := rfl
@[simp] theorem writeFlagAndResult_cause : (s.writeFlagAndResult x flag result).cause = s.cause := rfl
@[simp] theorem writeFlagAndResult_fpc : (s.writeFlagAndResult x flag result).fpc = s.fpc := rfl
@[simp] theorem writeFlagAndResult_fword : (s.writeFlagAndResult x flag result).fword = s.fword := rfl
@[simp] theorem writeFlagAndResult_fval : (s.writeFlagAndResult x flag result).fval = s.fval := rfl
@[simp] theorem writeFlagAndResult_rndCount : (s.writeFlagAndResult x flag result).rndCount = s.rndCount := rfl

end flagAndResult

theorem flagByte_eq_one (b : Bool) : flagByte b = 1 ↔ b = true := by cases b <;> decide

/-! The keypad. -/

theorem keyFlag_of_lt {s : State} {vx : Byte} (h : vx.toNat < 16) :
    s.keyFlag vx = some s.key[vx.toNat] := by simp [State.keyFlag, h]

theorem keyFlag_of_ge {s : State} {vx : Byte} (h : ¬vx.toNat < 16) : s.keyFlag vx = none := by
  simp [State.keyFlag, h, keyIndexOor]

theorem firstKey_eq_none {s : State} : s.firstKey = none ↔ ∀ k : Fin 16, s.key[k] = false := by
  simp [State.firstKey]

/-- The first key is pressed, and none below it is. -/
theorem firstKey_eq_some {s : State} {k : Fin 16} (h : s.firstKey = some k) :
    s.key[k] = true ∧ ∀ j : Fin 16, j < k → s.key[j] = false := by
  unfold State.firstKey at h
  obtain ⟨hk, pre, post, hsplit, hpre⟩ := List.find?_eq_some_iff_append.1 h
  refine ⟨hk, fun j hj => ?_⟩
  have hmem : j ∈ pre := by
    have hsorted : (List.finRange 16).Pairwise (· < ·) := List.pairwise_lt_finRange 16
    rw [hsplit, List.pairwise_append] at hsorted
    have : j ∈ pre ++ k :: post := hsplit ▸ List.mem_finRange j
    rcases List.mem_append.1 this with hm | hm
    · exact hm
    · rcases List.mem_cons.1 hm with rfl | hm
      · exact absurd hj (lt_irrefl _)
      · exact absurd hj (not_lt.2 (le_of_lt ((List.pairwise_cons.1 hsorted.2.1).1 j hm)))
  simpa using hpre j hmem

/-! Arithmetic on I and the operands. -/

theorem addrOfImm_toNat (nnn : Addr12) : (addrOfImm nnn).toNat = nnn.toNat := by
  have := nnn.isLt
  simp only [addrOfImm, BitVec.toNat_setWidth]
  omega

theorem wordOfByte_toNat (b : Byte) : (wordOfByte b).toNat = b.toNat := by
  have := b.isLt
  simp only [wordOfByte, BitVec.toNat_setWidth]
  omega

theorem offsetTarget_toNat (b : Byte) (nnn : Addr12) :
    (offsetTarget b nnn).toNat = b.toNat + nnn.toNat := by
  have := b.isLt
  have := nnn.isLt
  simp only [offsetTarget, BitVec.toNat_ofNat]
  omega

theorem indexSum_toNat (i : Word) (b : Byte) :
    (indexSum i b).toNat = (i.toNat + b.toNat) % 32768 := by
  simp only [indexSum, BitVec.toNat_ofNat, Config.iAddMod]
  omega

theorem glyphAddress_toNat (b : Byte) : (glyphAddress b).toNat = b.toNat * 5 := by
  have := b.isLt
  simp only [glyphAddress, BitVec.toNat_ofNat]
  omega

theorem indexPast_toNat {i : Word} {x : Reg} (h : i.toNat + blockLen x ≤ 4096) :
    (indexPast i x).toNat = i.toNat + blockLen x := by
  simp only [indexPast, BitVec.toNat_add, BitVec.toNat_ofNat]
  omega

theorem bcdBytes_length (b : Byte) : (bcdBytes b).length = 3 := rfl

theorem regBlock_length (s : State) (x : Reg) : (s.regBlock x).length = blockLen x := by
  have := x.isLt
  simp only [State.regBlock, blockLen, List.length_take, Vector.length_toList]
  omega

theorem regBlock_getElem (s : State) (x : Reg) (k : Nat) (h : k < (s.regBlock x).length) :
    (s.regBlock x)[k] = s.v[k]'(by rw [regBlock_length, blockLen] at h; omega) := by
  simp [State.regBlock]

theorem loadedRegs_getElem (s : State) (a : Nat) (x q : Reg) :
    (s.loadedRegs a x)[q] = if q ≤ x then s.mem.read (a + q.val) else s.readV q := by
  simp [State.loadedRegs, State.readV]

end Sys2Proof.Machine
end

