-- ==== Sys2Proof/Laws/Display.lean ====
section
/-! SUPPORT. What drawing does, said once: which cells a sprite covers, that it covers none twice, and the
display and the collision after a list of cells is drawn. -/

namespace Sys2Proof.Machine

theorem mem_spriteCells {m : Memory} {a : Nat} {vx vy : Byte} {n : Nat} {k : Fin 2048} :
    k ∈ spriteCells m a vx vy n ↔
      ∃ row, row < n ∧ ∃ col, col < 8 ∧ (m.read (a + row)).getLsbD (7 - col) = true ∧
        spriteCell vx vy row col = k := by
  simp [spriteCells, spriteRowCells]

/-- Rows are distinct modulo 32 and columns modulo 64, so no cell is visited twice (45_display.md R181). -/
theorem spriteCell_injective {vx vy : Byte} {r r' c c' : Nat} (hr : r < 32) (hr' : r' < 32) (hc : c < 64)
    (hc' : c' < 64) (h : spriteCell vx vy r c = spriteCell vx vy r' c') : r = r' ∧ c = c' := by
  simp only [spriteCell, Fin.mk.injEq] at h
  omega

theorem mem_spriteRowCells {vx vy : Byte} {row : Nat} {b : Byte} {k : Fin 2048} :
    k ∈ spriteRowCells vx vy row b ↔
      ∃ col, col < 8 ∧ b.getLsbD (7 - col) = true ∧ spriteCell vx vy row col = k := by
  simp [spriteRowCells]

theorem spriteRowCells_nodup {vx vy : Byte} {row : Nat} (hr : row < 32) (b : Byte) :
    (spriteRowCells vx vy row b).Nodup := by
  refine List.pairwise_filterMap.2 (List.Pairwise.imp_of_mem ?_ List.pairwise_lt_range)
  intro c c' hc hc' hlt k hk k' hk' he
  simp only [List.mem_range, Option.ite_none_right_eq_some, Option.some.injEq] at hc hc' hk hk'
  have := spriteCell_injective hr hr (by omega) (by omega) (hk.2.trans (he.trans hk'.2.symm))
  omega

theorem spriteCells_nodup (m : Memory) (a : Nat) (vx vy : Byte) {n : Nat} (hn : n ≤ 32) :
    (spriteCells m a vx vy n).Nodup := by
  refine List.nodup_flatMap.2 ⟨fun row hrow => ?_, List.Pairwise.imp_of_mem ?_ List.pairwise_lt_range⟩
  · exact spriteRowCells_nodup (by have := List.mem_range.1 hrow; omega) _
  · intro r r' hr hr' hlt k hk hk'
    simp only [List.mem_range] at hr hr'
    obtain ⟨c, hc, -, hck⟩ := mem_spriteRowCells.1 hk
    obtain ⟨c', hc', -, hck'⟩ := mem_spriteRowCells.1 hk'
    have := spriteCell_injective (by omega) (by omega) (by omega) (by omega) (hck.trans hck'.symm)
    omega

/-- Folding the cells from any display and any record: each cell once in the list is inverted, and the
record becomes true if one of them was lit. -/
theorem foldl_togglePixel {cells : List (Fin 2048)} (h : cells.Nodup) (d : Vector Bool 2048) (c : Bool) :
    (∀ k : Fin 2048, (cells.foldl togglePixel (d, c)).1[k] = (d[k] ^^ decide (k ∈ cells))) ∧
      (cells.foldl togglePixel (d, c)).2 = (c || cells.any fun k => d[k]) := by
  induction cells generalizing d c with
  | nil => simp
  | cons j rest ih =>
    obtain ⟨hj, hrest⟩ := List.nodup_cons.1 h
    obtain ⟨hd, hc⟩ := ih hrest (d.set j (!d[j])) (c || d[j])
    refine ⟨fun k => ?_, ?_⟩
    · simp only [List.foldl_cons, togglePixel]
      rw [hd k]
      by_cases hjk : j = k
      · subst hjk
        simp [hj]
      · have hv : j.val ≠ k.val := fun e => hjk (Fin.ext e)
        have hkj : k ≠ j := fun e => hjk e.symm
        simp [hv, hkj]
    · simp only [List.foldl_cons, togglePixel]
      rw [hc]
      have : (rest.any fun k => (d.set j (!d[j]))[k]) = rest.any fun k => d[k] := by
        rw [Bool.eq_iff_iff]
        simp only [List.any_eq_true]
        refine exists_congr fun k => and_congr_right fun hk => ?_
        have hv : j.val ≠ k.val := fun e => hj (Fin.ext e ▸ hk)
        simp [hv]
      rw [this, List.any_cons, Bool.or_assoc]

/-- Drawing inverts exactly the cells drawn on (each once). -/
theorem drawCells_getElem {cells : List (Fin 2048)} (h : cells.Nodup) (d : Vector Bool 2048) (k : Fin 2048) :
    (drawCells d cells).1[k] = (d[k] ^^ decide (k ∈ cells)) := (foldl_togglePixel h d false).1 k

/-- The collision is whether a cell drawn on was lit (45_display.md R182). -/
theorem drawCells_collision {cells : List (Fin 2048)} (h : cells.Nodup) (d : Vector Bool 2048) :
    (drawCells d cells).2 = cells.any fun k => d[k] := by
  simpa [drawCells] using (foldl_togglePixel h d false).2

end Sys2Proof.Machine
end

