-- ==== Sys2Proof/Laws/PerInstr.lean ====
section
/-! SUPPORT. The family `MatchesItsRow`: the word the encoder gives an instruction is selected by the row of the
opcode table (30_encoding.md R97) that bears the instruction's mnemonic. One lemma per constructor. -/

namespace Sys2Proof.Laws.MatchesItsRow

/-- The row of the table that bears the instruction's mnemonic selects its word. -/
def Statement (i : Instr) : Prop :=
  ∃ r ∈ opcodeTable, r.mnemonic = i.mnemonic ∧ r.selects (encode i) = true

theorem nop : Statement (.nop) :=
  ⟨⟨"NOP", 0xFFFF, 0x0000⟩, by decide, rfl, selects_FFFF.2 rfl⟩

theorem cls : Statement (.cls) :=
  ⟨⟨"CLS", 0xFFFF, 0x00E0⟩, by decide, rfl, selects_FFFF.2 rfl⟩

theorem ret : Statement (.ret) :=
  ⟨⟨"RET", 0xFFFF, 0x00EE⟩, by decide, rfl, selects_FFFF.2 rfl⟩

theorem jp (nnn : Addr12) : Statement (.jp nnn) :=
  ⟨⟨"JP_nnn", 0xF000, 0x1000⟩, by decide, rfl, selects_F000.2 (by
    have := nnn.isLt
    simp only [encode, encodeA_toNat, BitVec.reduceToNat]
    omega)⟩

theorem call (nnn : Addr12) : Statement (.call nnn) :=
  ⟨⟨"CALL_nnn", 0xF000, 0x2000⟩, by decide, rfl, selects_F000.2 (by
    have := nnn.isLt
    simp only [encode, encodeA_toNat, BitVec.reduceToNat]
    omega)⟩

theorem seImm (x : Reg) (nn : Byte) : Statement (.seImm x nn) :=
  ⟨⟨"SE_Vx__nn", 0xF000, 0x3000⟩, by decide, rfl, selects_F000.2 (by
    have := nn.isLt; have := x.isLt
    simp only [encode, encodeXI_toNat, BitVec.reduceToNat]
    omega)⟩

theorem sneImm (x : Reg) (nn : Byte) : Statement (.sneImm x nn) :=
  ⟨⟨"SNE_Vx__nn", 0xF000, 0x4000⟩, by decide, rfl, selects_F000.2 (by
    have := nn.isLt; have := x.isLt
    simp only [encode, encodeXI_toNat, BitVec.reduceToNat]
    omega)⟩

theorem seReg (x : Reg) (y : Reg) : Statement (.seReg x y) :=
  ⟨⟨"SE_Vx__Vy", 0xF00F, 0x5000⟩, by decide, rfl, selects_F00F.2 (by
    have := x.isLt; have := y.isLt
    simp only [encode, encodeXY_toNat, BitVec.reduceToNat]
    omega)⟩

theorem sneReg (x : Reg) (y : Reg) : Statement (.sneReg x y) :=
  ⟨⟨"SNE_Vx__Vy", 0xF00F, 0x9000⟩, by decide, rfl, selects_F00F.2 (by
    have := x.isLt; have := y.isLt
    simp only [encode, encodeXY_toNat, BitVec.reduceToNat]
    omega)⟩

theorem ldImm (x : Reg) (nn : Byte) : Statement (.ldImm x nn) :=
  ⟨⟨"LD_Vx__nn", 0xF000, 0x6000⟩, by decide, rfl, selects_F000.2 (by
    have := nn.isLt; have := x.isLt
    simp only [encode, encodeXI_toNat, BitVec.reduceToNat]
    omega)⟩

theorem addImm (x : Reg) (nn : Byte) : Statement (.addImm x nn) :=
  ⟨⟨"ADD_Vx__nn", 0xF000, 0x7000⟩, by decide, rfl, selects_F000.2 (by
    have := nn.isLt; have := x.isLt
    simp only [encode, encodeXI_toNat, BitVec.reduceToNat]
    omega)⟩

theorem ldReg (x : Reg) (y : Reg) : Statement (.ldReg x y) :=
  ⟨⟨"LD_Vx__Vy", 0xF00F, 0x8000⟩, by decide, rfl, selects_F00F.2 (by
    have := x.isLt; have := y.isLt
    simp only [encode, encodeXY_toNat, BitVec.reduceToNat]
    omega)⟩

theorem orReg (x : Reg) (y : Reg) : Statement (.orReg x y) :=
  ⟨⟨"OR_Vx__Vy", 0xF00F, 0x8001⟩, by decide, rfl, selects_F00F.2 (by
    have := x.isLt; have := y.isLt
    simp only [encode, encodeXY_toNat, BitVec.reduceToNat]
    omega)⟩

theorem andReg (x : Reg) (y : Reg) : Statement (.andReg x y) :=
  ⟨⟨"AND_Vx__Vy", 0xF00F, 0x8002⟩, by decide, rfl, selects_F00F.2 (by
    have := x.isLt; have := y.isLt
    simp only [encode, encodeXY_toNat, BitVec.reduceToNat]
    omega)⟩

theorem xorReg (x : Reg) (y : Reg) : Statement (.xorReg x y) :=
  ⟨⟨"XOR_Vx__Vy", 0xF00F, 0x8003⟩, by decide, rfl, selects_F00F.2 (by
    have := x.isLt; have := y.isLt
    simp only [encode, encodeXY_toNat, BitVec.reduceToNat]
    omega)⟩

theorem addReg (x : Reg) (y : Reg) : Statement (.addReg x y) :=
  ⟨⟨"ADD_Vx__Vy", 0xF00F, 0x8004⟩, by decide, rfl, selects_F00F.2 (by
    have := x.isLt; have := y.isLt
    simp only [encode, encodeXY_toNat, BitVec.reduceToNat]
    omega)⟩

theorem subReg (x : Reg) (y : Reg) : Statement (.subReg x y) :=
  ⟨⟨"SUB_Vx__Vy", 0xF00F, 0x8005⟩, by decide, rfl, selects_F00F.2 (by
    have := x.isLt; have := y.isLt
    simp only [encode, encodeXY_toNat, BitVec.reduceToNat]
    omega)⟩

theorem shrReg (x : Reg) (y : Reg) : Statement (.shrReg x y) :=
  ⟨⟨"SHR_Vx__Vy", 0xF00F, 0x8006⟩, by decide, rfl, selects_F00F.2 (by
    have := x.isLt; have := y.isLt
    simp only [encode, encodeXY_toNat, BitVec.reduceToNat]
    omega)⟩

theorem subnReg (x : Reg) (y : Reg) : Statement (.subnReg x y) :=
  ⟨⟨"SUBN_Vx__Vy", 0xF00F, 0x8007⟩, by decide, rfl, selects_F00F.2 (by
    have := x.isLt; have := y.isLt
    simp only [encode, encodeXY_toNat, BitVec.reduceToNat]
    omega)⟩

theorem shlReg (x : Reg) (y : Reg) : Statement (.shlReg x y) :=
  ⟨⟨"SHL_Vx__Vy", 0xF00F, 0x800E⟩, by decide, rfl, selects_F00F.2 (by
    have := x.isLt; have := y.isLt
    simp only [encode, encodeXY_toNat, BitVec.reduceToNat]
    omega)⟩

theorem ldI (nnn : Addr12) : Statement (.ldI nnn) :=
  ⟨⟨"LD_I__nnn", 0xF000, 0xA000⟩, by decide, rfl, selects_F000.2 (by
    have := nnn.isLt
    simp only [encode, encodeA_toNat, BitVec.reduceToNat]
    omega)⟩

theorem jpV0 (nnn : Addr12) : Statement (.jpV0 nnn) :=
  ⟨⟨"JP_V0__nnn", 0xF000, 0xB000⟩, by decide, rfl, selects_F000.2 (by
    have := nnn.isLt
    simp only [encode, encodeA_toNat, BitVec.reduceToNat]
    omega)⟩

theorem rnd (x : Reg) (nn : Byte) : Statement (.rnd x nn) :=
  ⟨⟨"RND_Vx__nn", 0xF000, 0xC000⟩, by decide, rfl, selects_F000.2 (by
    have := nn.isLt; have := x.isLt
    simp only [encode, encodeXI_toNat, BitVec.reduceToNat]
    omega)⟩

theorem drw (x : Reg) (y : Reg) (n : Fin 16) : Statement (.drw x y n) :=
  ⟨⟨"DRW_Vx__Vy__n", 0xF000, 0xD000⟩, by decide, rfl, selects_F000.2 (by
    have := x.isLt; have := y.isLt; have := (nibble n).isLt
    simp only [encode, encodeXY_toNat, BitVec.reduceToNat]
    omega)⟩

theorem skp (x : Reg) : Statement (.skp x) :=
  ⟨⟨"SKP_Vx", 0xF0FF, 0xE09E⟩, by decide, rfl, selects_F0FF.2 (by
    have := x.isLt
    simp only [encode, encodeXF_toNat, BitVec.reduceToNat]
    omega)⟩

theorem sknp (x : Reg) : Statement (.sknp x) :=
  ⟨⟨"SKNP_Vx", 0xF0FF, 0xE0A1⟩, by decide, rfl, selects_F0FF.2 (by
    have := x.isLt
    simp only [encode, encodeXF_toNat, BitVec.reduceToNat]
    omega)⟩

theorem ldVxDt (x : Reg) : Statement (.ldVxDt x) :=
  ⟨⟨"LD_Vx__DT", 0xF0FF, 0xF007⟩, by decide, rfl, selects_F0FF.2 (by
    have := x.isLt
    simp only [encode, encodeXF_toNat, BitVec.reduceToNat]
    omega)⟩

theorem ldVxK (x : Reg) : Statement (.ldVxK x) :=
  ⟨⟨"LD_Vx__K", 0xF0FF, 0xF00A⟩, by decide, rfl, selects_F0FF.2 (by
    have := x.isLt
    simp only [encode, encodeXF_toNat, BitVec.reduceToNat]
    omega)⟩

theorem ldDtVx (x : Reg) : Statement (.ldDtVx x) :=
  ⟨⟨"LD_DT__Vx", 0xF0FF, 0xF015⟩, by decide, rfl, selects_F0FF.2 (by
    have := x.isLt
    simp only [encode, encodeXF_toNat, BitVec.reduceToNat]
    omega)⟩

theorem ldStVx (x : Reg) : Statement (.ldStVx x) :=
  ⟨⟨"LD_ST__Vx", 0xF0FF, 0xF018⟩, by decide, rfl, selects_F0FF.2 (by
    have := x.isLt
    simp only [encode, encodeXF_toNat, BitVec.reduceToNat]
    omega)⟩

theorem addI (x : Reg) : Statement (.addI x) :=
  ⟨⟨"ADD_I__Vx", 0xF0FF, 0xF01E⟩, by decide, rfl, selects_F0FF.2 (by
    have := x.isLt
    simp only [encode, encodeXF_toNat, BitVec.reduceToNat]
    omega)⟩

theorem ldF (x : Reg) : Statement (.ldF x) :=
  ⟨⟨"LD_F__Vx", 0xF0FF, 0xF029⟩, by decide, rfl, selects_F0FF.2 (by
    have := x.isLt
    simp only [encode, encodeXF_toNat, BitVec.reduceToNat]
    omega)⟩

theorem ldB (x : Reg) : Statement (.ldB x) :=
  ⟨⟨"LD_B__Vx", 0xF0FF, 0xF033⟩, by decide, rfl, selects_F0FF.2 (by
    have := x.isLt
    simp only [encode, encodeXF_toNat, BitVec.reduceToNat]
    omega)⟩

theorem storeRegs (x : Reg) : Statement (.storeRegs x) :=
  ⟨⟨"LD__I___Vx", 0xF0FF, 0xF055⟩, by decide, rfl, selects_F0FF.2 (by
    have := x.isLt
    simp only [encode, encodeXF_toNat, BitVec.reduceToNat]
    omega)⟩

theorem loadRegs (x : Reg) : Statement (.loadRegs x) :=
  ⟨⟨"LD_Vx___I", 0xF0FF, 0xF065⟩, by decide, rfl, selects_F0FF.2 (by
    have := x.isLt
    simp only [encode, encodeXF_toNat, BitVec.reduceToNat]
    omega)⟩

end Sys2Proof.Laws.MatchesItsRow
end

