-- ==== Sys2Proof/Laws/Step.lean ====
section
/-! SUPPORT. What a step can do, said once: the cases of `step`, and the shape of every answer of `exec`. -/

namespace Sys2Proof.Machine

/-- The one outcome a meaning and a step can have: a next state (`Fault` has no constructor). -/
theorem raise_eq (s : State) (c : Cause) (w u : Word) : s.raise c w u = .next (s.takeFault c w u) := rfl

theorem step_halted {s : State} (h : s.halt = true) : step s = .next s := by simp [step, h]

theorem step_fetch_fails {s : State} (h : s.halt = false) (hp : ¬s.pc.toNat ≤ 0xFFE) :
    step s = .next (s.takeFault .outOfBounds 0 (outOfRangeValue s.pc)) := by
  simp [step, h, fetch_eq_none hp, State.raise]

theorem step_illegal {s : State} (h : s.halt = false) (hp : s.pc.toNat ≤ 0xFFE)
    (hd : decode (s.mem.readWord s.pc.toNat) = none) :
    step s = .next (s.takeFault .unimplementedOpcode (s.mem.readWord s.pc.toNat)
      (s.mem.readWord s.pc.toNat)) := by
  simp [step, h, fetch_eq_some hp, hd, State.raise]

theorem step_decoded {s : State} {i : Instr} (h : s.halt = false) (hp : s.pc.toNat ≤ 0xFFE)
    (hd : decode (s.mem.readWord s.pc.toNat) = some i) : step s = exec i s := by
  simp [step, h, fetch_eq_some hp, hd]

/-- The four cases of a step: halted, fetch outside memory, illegal word, an instruction. -/
theorem step_cases (s : State) :
    (s.halt = true ∧ step s = .next s) ∨
    (s.halt = false ∧ ¬s.pc.toNat ≤ 0xFFE ∧
      step s = .next (s.takeFault .outOfBounds 0 (outOfRangeValue s.pc))) ∨
    (s.halt = false ∧ s.pc.toNat ≤ 0xFFE ∧ decode (s.mem.readWord s.pc.toNat) = none ∧
      step s = .next (s.takeFault .unimplementedOpcode (s.mem.readWord s.pc.toNat)
        (s.mem.readWord s.pc.toNat))) ∨
    (∃ i, s.halt = false ∧ s.pc.toNat ≤ 0xFFE ∧ decode (s.mem.readWord s.pc.toNat) = some i ∧
      step s = exec i s) := by
  cases h : s.halt
  · by_cases hp : s.pc.toNat ≤ 0xFFE
    · cases hd : decode (s.mem.readWord s.pc.toNat) with
      | none => exact .inr (.inr (.inl ⟨rfl, hp, rfl, step_illegal h hp hd⟩))
      | some i => exact .inr (.inr (.inr ⟨i, rfl, hp, rfl, step_decoded h hp hd⟩))
    · exact .inr (.inl ⟨rfl, hp, step_fetch_fails h hp⟩)
  · exact .inl ⟨rfl, step_halted h⟩

/-- A bounds-checked instruction answers its effect or OutOfBounds. -/
theorem guardAtI_cases (s : State) (len : Nat) (w : Word) (done : State) :
    ((len = 0 ∨ s.i.toNat + len ≤ 4096) ∧ s.guardAtI len w done = .next done) ∨
    (¬(len = 0 ∨ s.i.toNat + len ≤ 4096) ∧
      s.guardAtI len w done = .next (s.takeFault .outOfBounds w (outOfRangeValue s.i))) := by
  by_cases h : len = 0 ∨ s.i.toNat + len ≤ 4096
  · exact .inl ⟨h, guardAtI_inRange h⟩
  · exact .inr ⟨h, guardAtI_outOfRange h⟩

/-- FX33: the digits stored, or OutOfBounds. -/
theorem execLdB_cases (x : Reg) (s : State) :
    (s.i.toNat + 2 ≤ 0xFFF ∧ execLdB x s =
      .next (s.advance.setMem (s.mem.writeBytes s.i.toNat (bcdBytes (s.readV x))))) ∨
    (¬s.i.toNat + 2 ≤ 0xFFF ∧ execLdB x s =
      .next (s.takeFault .outOfBounds (encode (.ldB x)) (outOfRangeValue s.i))) := by
  unfold execLdB
  rcases guardAtI_cases s 3 (encode (.ldB x))
    (s.advance.setMem (s.mem.writeBytes s.i.toNat (bcdBytes (s.readV x)))) with ⟨h, e⟩ | ⟨h, e⟩
  · exact .inl ⟨by omega, e⟩
  · exact .inr ⟨by omega, e⟩

/-- FX55: the registers stored, or OutOfBounds. -/
theorem execStoreRegs_cases (x : Reg) (s : State) :
    (s.i.toNat + x.val ≤ 0xFFF ∧ execStoreRegs x s =
      .next ((s.advance.setMem (s.mem.writeBytes s.i.toNat (s.regBlock x))).setI (indexPast s.i x))) ∨
    (¬s.i.toNat + x.val ≤ 0xFFF ∧ execStoreRegs x s =
      .next (s.takeFault .outOfBounds (encode (.storeRegs x)) (outOfRangeValue s.i))) := by
  unfold execStoreRegs
  have hb : blockLen x = x.val + 1 := rfl
  rcases guardAtI_cases s (blockLen x) (encode (.storeRegs x))
    ((s.advance.setMem (s.mem.writeBytes s.i.toNat (s.regBlock x))).setI (indexPast s.i x))
    with ⟨h, e⟩ | ⟨h, e⟩
  · exact .inl ⟨by omega, e⟩
  · exact .inr ⟨by omega, e⟩

/-- FX65: the registers loaded, or OutOfBounds. -/
theorem execLoadRegs_cases (x : Reg) (s : State) :
    (s.i.toNat + x.val ≤ 0xFFF ∧ execLoadRegs x s =
      .next ((s.advance.setV (s.loadedRegs s.i.toNat x)).setI (indexPast s.i x))) ∨
    (¬s.i.toNat + x.val ≤ 0xFFF ∧ execLoadRegs x s =
      .next (s.takeFault .outOfBounds (encode (.loadRegs x)) (outOfRangeValue s.i))) := by
  unfold execLoadRegs
  have hb : blockLen x = x.val + 1 := rfl
  rcases guardAtI_cases s (blockLen x) (encode (.loadRegs x))
    ((s.advance.setV (s.loadedRegs s.i.toNat x)).setI (indexPast s.i x)) with ⟨h, e⟩ | ⟨h, e⟩
  · exact .inl ⟨by omega, e⟩
  · exact .inr ⟨by omega, e⟩

/-- The cells a DXYN draws on. -/
def drwCells (x y : Reg) (n : Fin 16) (s : State) : List (Fin 2048) :=
  spriteCells s.mem s.i.toNat (s.readV x) (s.readV y) n.val

/-- DXYN: the sprite drawn and the collision written, or OutOfBounds. -/
theorem execDrw_cases (x y : Reg) (n : Fin 16) (s : State) :
    ((n.val = 0 ∨ s.i.toNat + n.val - 1 ≤ 0xFFF) ∧ execDrw x y n s =
      .next ((s.advance.setDisp (drawCells s.disp (drwCells x y n s)).1).writeV vf
        (collisionFlag (drawCells s.disp (drwCells x y n s)).2))) ∨
    (¬(n.val = 0 ∨ s.i.toNat + n.val - 1 ≤ 0xFFF) ∧ execDrw x y n s =
      .next (s.takeFault .outOfBounds (encode (.drw x y n)) (outOfRangeValue s.i))) := by
  unfold execDrw
  rcases guardAtI_cases s n.val (encode (.drw x y n))
    ((s.advance.setDisp (drawCells s.disp (drwCells x y n s)).1).writeV vf
      (collisionFlag (drawCells s.disp (drwCells x y n s)).2)) with ⟨h, e⟩ | ⟨h, e⟩
  · exact .inl ⟨by omega, e⟩
  · exact .inr ⟨by omega, e⟩

/-- CALL: a push and a jump, or StackOverflow. -/
theorem execCall_cases (nnn : Addr12) (s : State) :
    (∃ h : s.sp.val < 16, execCall nnn s = .next ((s.advance.setStack
        (s.stack.set s.sp.val (s.pc + 2)) ⟨s.sp.val + 1, by omega⟩).setPc (addrOfImm nnn))) ∨
    (s.sp.val = 16 ∧
      execCall nnn s = .next (s.takeFault .stackOverflow (encode (.call nnn)) 16)) := by
  unfold execCall
  cases h : s.advance.push s.advance.pc with
  | none => exact .inr ⟨(push_eq_none (s := s.advance)).1 h, rfl⟩
  | some t =>
    obtain ⟨hs, rfl⟩ := push_eq_some.1 h
    exact .inl ⟨hs, rfl⟩

/-- RET: a pop into PC, or StackUnderflow. -/
theorem execRet_cases (s : State) :
    (∃ _ : s.sp.val ≠ 0, execRet s = .next ((s.advance.setStack s.stack
        ⟨s.sp.val - 1, by omega⟩).setPc (s.stack[s.sp.val - 1]'(by omega)))) ∨
    (s.sp.val = 0 ∧ execRet s = .next (s.takeFault .stackUnderflow (encode .ret) 0)) := by
  unfold execRet
  cases h : s.advance.pop with
  | none => exact .inr ⟨(pop_eq_none (s := s.advance)).1 h, rfl⟩
  | some p =>
    obtain ⟨a, t⟩ := p
    obtain ⟨hs, rfl, rfl⟩ := pop_eq_some.1 h
    exact .inl ⟨hs, rfl⟩

/-- EX9E: a skip on the key's flag, or InvalidKeyIndex. -/
theorem execSkp_cases (x : Reg) (s : State) :
    (∃ h : (s.readV x).toNat < 16,
      execSkp x s = .next (s.advance.skipIf s.key[(s.readV x).toNat])) ∨
    (¬(s.readV x).toNat < 16 ∧ execSkp x s =
      .next (s.takeFault .invalidKeyIndex (encode (.skp x)) (wordOfByte (s.readV x)))) := by
  by_cases h : (s.readV x).toNat < 16
  · exact .inl ⟨h, by simp only [execSkp, keyFlag_of_lt h]⟩
  · exact .inr ⟨h, by simp only [execSkp, keyFlag_of_ge h, State.raise]⟩

/-- EXA1: a skip on the key's flag, or InvalidKeyIndex. -/
theorem execSknp_cases (x : Reg) (s : State) :
    (∃ h : (s.readV x).toNat < 16,
      execSknp x s = .next (s.advance.skipIf (!s.key[(s.readV x).toNat]))) ∨
    (¬(s.readV x).toNat < 16 ∧ execSknp x s =
      .next (s.takeFault .invalidKeyIndex (encode (.sknp x)) (wordOfByte (s.readV x)))) := by
  by_cases h : (s.readV x).toNat < 16
  · exact .inl ⟨h, by simp only [execSknp, keyFlag_of_lt h]⟩
  · exact .inr ⟨h, by simp only [execSknp, keyFlag_of_ge h, State.raise]⟩

/-- FX0A: the least pressed key, or nothing at all. -/
theorem execLdVxK_cases (x : Reg) (s : State) :
    (∃ k : Fin 16, s.key[k] = true ∧ (∀ j : Fin 16, j < k → s.key[j] = false) ∧
      execLdVxK x s = .next (s.advance.writeV x (BitVec.ofNat 8 k.val))) ∨
    ((∀ k : Fin 16, s.key[k] = false) ∧ execLdVxK x s = .next s) := by
  unfold execLdVxK
  cases h : s.firstKey with
  | none =>
    refine .inr ⟨firstKey_eq_none.1 h, ?_⟩
    simp [State.setPc, State.advance]
  | some k => exact .inl ⟨k, (firstKey_eq_some h).1, (firstKey_eq_some h).2, rfl⟩

/-- The Step the host issues with the byte the free value gives is the model's step. -/
theorem stepWith_free (s : State) : stepWith (Config.rnd s.rndCount) s = step s := by
  unfold stepWith step
  cases s.halt
  · cases s.fetch with
    | none => rfl
    | some w =>
      simp only [Option.bind_some]
      cases decode w with
      | none => rfl
      | some i => cases i <;> rfl
  · rfl

/-- The word withFetchWord places is the one the next Step runs. -/
theorem step_withFetchWord {s : State} (hw : s.mem.wf = true) {nbits w : Nat} {i : Instr}
    (hd : decode (tableWord nbits w) = some i) :
    step (s.withFetchWord nbits w) = exec i (s.withFetchWord nbits w) := by
  have hp : (s.withFetchWord nbits w).pc.toNat ≤ 0xFFE := by
    simp only [State.withFetchWord]
    split
    · rename_i h; rw [inRange_iff] at h; omega
    · decide
  refine step_decoded rfl hp (hd ▸ congrArg decode ?_)
  have hr : (s.withFetchWord nbits w).pc.toNat + (bytesOfWord (tableWord nbits w)).length ≤ 4096 := by
    simp only [bytesOfWord, List.length_cons, List.length_nil]; omega
  have hm : (s.withFetchWord nbits w).mem =
      s.mem.writeBytes (s.withFetchWord nbits w).pc.toNat (bytesOfWord (tableWord nbits w)) := rfl
  rw [hm]
  generalize tableWord nbits w = u at *
  generalize (s.withFetchWord nbits w).pc.toNat = p at *
  have h0 : (s.mem.writeBytes p (bytesOfWord u)).read p = u.extractLsb' 8 8 := by
    rw [read_writeBytes hw hr, dif_pos (by simp [bytesOfWord])]; simp [bytesOfWord]
  have h1 : (s.mem.writeBytes p (bytesOfWord u)).read (p + 1) = u.extractLsb' 0 8 := by
    rw [read_writeBytes hw hr, dif_pos (by simp [bytesOfWord])]; simp [bytesOfWord]
  rw [Memory.readWord, wordOfBytes, h0, h1]
  apply BitVec.eq_of_toNat_eq
  have := u.isLt
  rw [append_toNat]
  simp only [BitVec.extractLsb'_toNat, Nat.shiftRight_eq_div_pow]
  omega

/-- Memory after a store at I, byte by byte. -/
theorem read_writeBytes_eq_byteWithStored {s : State} (hw : s.mem.wf = true) {bytes : List Byte}
    (hr : s.i.toNat + bytes.length ≤ 4096) (a : Nat) :
    (s.mem.writeBytes s.i.toNat bytes).read a = byteWithStored s bytes a := by
  rw [read_writeBytes hw hr, byteWithStored]
  by_cases h1 : s.i.toNat ≤ a
  · by_cases h2 : a < s.i.toNat + bytes.length
    · rw [dif_pos ⟨h1, h2⟩, if_pos h1, List.getD_eq_getElem]
    · rw [dif_neg (by omega), if_pos h1, List.getD_eq_default]
      omega
  · rw [dif_neg (by omega), if_neg h1]

end Sys2Proof.Machine
end

