-- ==== Sys2Proof/Tests/Slice0.lean ====
section
/-! SUPPORT. Tests. Expected values are the worked examples of the instruction rules and the vectors of
95_test_vectors.md (S1 to S7 are the source's own), never the model's answer. `test_…` checks one thing;
`witness_…` shows a concrete state and operands that meet the hypotheses of the statement it names. -/

namespace Sys2Proof.Tests

open Sys2Proof.Machine

/-! ## Helpers -/

/-- The Reset state with PC, I, some registers and some memory bytes as given. -/
def mach (pc i : Word) (vs : List (Reg × Byte)) (bytes : List Host.Cell) : State :=
  { State.reset with
    pc := pc
    i := i
    v := vs.foldl (fun v p => v.set p.1.val p.2) State.reset.v
    mem := bytes.foldl (fun m c => m.write c.1 c.2) [] }

/-- The Reset state with registers. -/
def regs (vs : List (Reg × Byte)) : State := mach 0x200 0 vs []

/-- The state a meaning or a step answers. -/
def after (r : Result) : State :=
  match r with
  | .next t => t
  | .fault f => nomatch f
  | .refused _ => State.reset

/-- One Step with the word placed where it fetches. -/
def run1 (s : State) (w : Nat) : State := after (step (s.withFetchWord 16 w))

/-- What some registers hold, and PC. -/
def seen (t : State) (rs : List Reg) : List Byte × Word := (rs.map t.readV, t.pc)

/-- `n` bytes of memory from `a`. -/
def bytesAt (t : State) (a n : Nat) : List Byte := (List.range n).map fun k => t.mem.read (a + k)

/-- Some cells of the display, and how many cells are lit in all. -/
def lit (t : State) (cells : List (Fin 2048)) : List Bool × Nat :=
  (cells.map fun k => t.disp[k], t.disp.toList.count true)

/-- The state with the cells given lit. -/
def light (s : State) (cells : List (Fin 2048)) : State :=
  { s with disp := cells.foldl (fun d k => d.set k.val true) s.disp }

/-- The state with the keys given pressed. -/
def press (s : State) (keys : List (Fin 16)) : State :=
  { s with key := keys.foldl (fun ks k => ks.set k.val true) s.key }

/-! ## WellFormed refuses the ill-formed (30_encoding.md R98; R244; R215) -/

theorem test_illformed_word_group0 : wordWellFormed 0x0123 = false := by decide
theorem test_illformed_word_group5 : wordWellFormed 0x5121 = false := by decide
theorem test_illformed_word_group8 : wordWellFormed 0x8018 = false := by decide
theorem test_illformed_word_group9 : wordWellFormed 0x912F = false := by decide
theorem test_illformed_word_groupE : wordWellFormed 0xE100 = false := by decide
theorem test_illformed_word_groupF : wordWellFormed 0xF575 = false := by decide
theorem test_wellformed_word : wordWellFormed 0x5120 = true := by decide
theorem test_illformed_program : programWellFormed (List.replicate 3585 0) = false := by
  rw [programWellFormed, List.length_replicate]; decide
theorem test_wellformed_program : programWellFormed (List.replicate 3584 0) = true := by
  rw [programWellFormed, List.length_replicate]; decide
theorem test_illformed_key : keyIndexWellFormed 16 = false := by decide
theorem test_wellformed_key : keyIndexWellFormed 15 = true := by decide

/-! ## Decoding: every constructor by a word written out from its pattern in 30_encoding.md R97 -/

theorem test_decode_nop : decode 0b0000_0000_0000_0000#16 = some .nop := by decide
theorem test_decode_cls : decode 0b0000_0000_1110_0000#16 = some .cls := by decide
theorem test_decode_ret : decode 0b0000_0000_1110_1110#16 = some .ret := by decide
theorem test_decode_jp : decode 0b0001_1010_1011_1100#16 = some (.jp 0xABC) := by decide
theorem test_decode_call : decode 0b0010_0011_0000_0001#16 = some (.call 0x301) := by decide
theorem test_decode_seImm : decode 0b0011_0011_0010_1010#16 = some (.seImm 3 0x2A) := by decide
theorem test_decode_sneImm : decode 0b0100_1100_1000_0001#16 = some (.sneImm 12 0x81) := by decide
theorem test_decode_seReg : decode 0b0101_0001_0010_0000#16 = some (.seReg 1 2) := by decide
theorem test_decode_sneReg : decode 0b1001_0111_1110_0000#16 = some (.sneReg 7 14) := by decide
theorem test_decode_ldImm : decode 0b0110_1010_0111_1111#16 = some (.ldImm 10 0x7F) := by decide
theorem test_decode_addImm : decode 0b0111_0001_0000_0011#16 = some (.addImm 1 0x03) := by decide
theorem test_decode_ldReg : decode 0b1000_0100_1010_0000#16 = some (.ldReg 4 10) := by decide
theorem test_decode_orReg : decode 0b1000_0100_1010_0001#16 = some (.orReg 4 10) := by decide
theorem test_decode_andReg : decode 0b1000_0100_1010_0010#16 = some (.andReg 4 10) := by decide
theorem test_decode_xorReg : decode 0b1000_0100_1010_0011#16 = some (.xorReg 4 10) := by decide
theorem test_decode_addReg : decode 0b1000_0100_1010_0100#16 = some (.addReg 4 10) := by decide
theorem test_decode_subReg : decode 0b1000_0100_1010_0101#16 = some (.subReg 4 10) := by decide
theorem test_decode_shrReg : decode 0b1000_0100_1010_0110#16 = some (.shrReg 4 10) := by decide
theorem test_decode_subnReg : decode 0b1000_0100_1010_0111#16 = some (.subnReg 4 10) := by decide
theorem test_decode_shlReg : decode 0b1000_0100_1010_1110#16 = some (.shlReg 4 10) := by decide
theorem test_decode_ldI : decode 0b1010_0010_1111_0001#16 = some (.ldI 0x2F1) := by decide
theorem test_decode_jpV0 : decode 0b1011_0011_0000_0100#16 = some (.jpV0 0x304) := by decide
theorem test_decode_rnd : decode 0b1100_0011_0000_1111#16 = some (.rnd 3 0x0F) := by decide
theorem test_decode_drw : decode 0b1101_0000_0001_0101#16 = some (.drw 0 1 5) := by decide
theorem test_decode_skp : decode 0b1110_0001_1001_1110#16 = some (.skp 1) := by decide
theorem test_decode_sknp : decode 0b1110_0001_1010_0001#16 = some (.sknp 1) := by decide
theorem test_decode_ldVxDt : decode 0b1111_0101_0000_0111#16 = some (.ldVxDt 5) := by decide
theorem test_decode_ldVxK : decode 0b1111_0011_0000_1010#16 = some (.ldVxK 3) := by decide
theorem test_decode_ldDtVx : decode 0b1111_0101_0001_0101#16 = some (.ldDtVx 5) := by decide
theorem test_decode_ldStVx : decode 0b1111_0101_0001_1000#16 = some (.ldStVx 5) := by decide
theorem test_decode_addI : decode 0b1111_0010_0001_1110#16 = some (.addI 2) := by decide
theorem test_decode_ldF : decode 0b1111_0100_0010_1001#16 = some (.ldF 4) := by decide
theorem test_decode_ldB : decode 0b1111_0000_0011_0011#16 = some (.ldB 0) := by decide
theorem test_decode_storeRegs : decode 0b1111_0010_0101_0101#16 = some (.storeRegs 2) := by decide
theorem test_decode_loadRegs : decode 0b1111_1111_0110_0101#16 = some (.loadRegs 15) := by decide

/-- The high byte stands at the lower address (20_memory.md R65), and the rest follows. -/
theorem test_decode_bytes : decodeBytes [0x6A, 0x7F, 0x00] = .instr (.ldImm 10 0x7F) [0x00] := by decide
theorem test_decode_bytes_illegal : decodeBytes [0x01, 0x23] = .unimplementedOpcode 0x0123 := by decide
theorem test_decode_bytes_truncated : decodeBytes [0x6A] = .truncated := by decide
theorem test_decode_table_word : decodeTableWord 16 0x6A7F = some (.ldImm 10 0x7F) := by decide

/-! ## One Step (95_test_vectors.md, parts 1 and 2.1) -/

theorem test_fetch_at_ffe : (run1 (mach 0xFFE 0 [] []) 0x0000).pc = 0x1000 := by decide
theorem test_fetch_at_fff :
    (after (step (mach 0xFFF 0 [] []))).status = ⟨true, 2, 0xFFF, 0, 0x1000⟩ := by decide
theorem test_fetch_at_10fe :
    (after (step (mach 0x10FE 0 [] []))).status = ⟨true, 2, 0x10FE, 0, 0x10FE⟩ := by decide
theorem test_illegal_word :
    (run1 State.reset 0x0123).status = ⟨true, 1, 0x0200, 0x0123, 0x0123⟩ ∧
      (run1 State.reset 0x0123).pc = 0x200 := by decide
theorem test_odd_pc :
    seen (after (step (mach 0x301 0 [] [(0x301, 0x6A), (0x302, 0x7F)]))) [10] = ([0x7F], 0x303) := by decide
theorem test_halted_step :
    seen (after (step { mach 0x200 0 [] [(0x200, 0x6A), (0x201, 0x7F)] with halt := true })) [10] =
      ([0x00], 0x200) := by decide

/-! ## Control flow (part 2.2, S6) -/

theorem test_nop : (run1 State.reset 0x0000).pc = 0x202 := by decide
theorem test_ret_pops :
    let s := { mach 0x400 0 [] [] with stack := (State.reset.stack.set 0 0x206).set 1 0x30A, sp := 2 }
    ((run1 s 0x00EE).pc, (run1 s 0x00EE).sp, (run1 s 0x00EE).stack[1]) = (0x30A, 1, 0x30A) := by decide
theorem test_ret_empty : (run1 State.reset 0x00EE).status = ⟨true, 4, 0x0200, 0x00EE, 0⟩ := by decide
theorem test_jp : (run1 State.reset 0x1ABC).pc = 0xABC := by decide
theorem test_jp_self : (run1 State.reset 0x1200).pc = 0x200 := by decide
theorem test_call :
    ((run1 (mach 0x204 0 [] []) 0x2300).pc, (run1 (mach 0x204 0 [] []) 0x2300).sp,
      (run1 (mach 0x204 0 [] []) 0x2300).stack[0]) = (0x300, 1, 0x0206) := by decide
theorem test_call_full :
    (run1 { State.reset with sp := 16 } 0x2300).status = ⟨true, 3, 0x0200, 0x2300, 0x10⟩ ∧
      (run1 { State.reset with sp := 16 } 0x2300).pc = 0x200 := by decide
theorem test_jpV0 : (run1 (regs [(0, 0x04)]) 0xB300).pc = 0x304 := by decide
theorem test_jpV0_above_12_bits : (run1 (regs [(0, 0xFF)]) 0xBFFF).pc = 0x10FE := by decide

/-! ## Skips (part 2.3) -/

theorem test_seImm_taken : (run1 (regs [(3, 0x2A)]) 0x332A).pc = 0x204 := by decide
theorem test_seImm_not_taken : (run1 (regs [(3, 0x2B)]) 0x332A).pc = 0x202 := by decide
theorem test_sneImm_not_taken : (run1 (regs [(3, 0x2A)]) 0x432A).pc = 0x202 := by decide
theorem test_sneImm_taken : (run1 (regs [(3, 0x2B)]) 0x432A).pc = 0x204 := by decide
theorem test_seReg_taken : (run1 (regs [(1, 7), (2, 7)]) 0x5120).pc = 0x204 := by decide
theorem test_seReg_not_taken : (run1 (regs [(1, 7), (2, 8)]) 0x5120).pc = 0x202 := by decide
theorem test_sneReg_taken : (run1 (regs [(1, 7), (2, 8)]) 0x9120).pc = 0x204 := by decide
theorem test_sneReg_not_taken : (run1 (regs [(1, 7), (2, 7)]) 0x9120).pc = 0x202 := by decide

/-! ## Load, arithmetic, logic, shifts, random (part 2.4, S1, S2) -/

theorem test_ldImm : seen (run1 State.reset 0x6A7F) [10] = ([0x7F], 0x202) := by decide
theorem test_addImm_wraps : seen (run1 (regs [(2, 0xFF), (15, 7)]) 0x7202) [2, 15] = ([0x01, 7], 0x202) := by
  decide
theorem test_ldReg : seen (run1 (regs [(1, 0x33)]) 0x8010) [0, 1] = ([0x33, 0x33], 0x202) := by decide
theorem test_orReg :
    seen (run1 (regs [(0, 0xF0), (1, 0x0F), (15, 5)]) 0x8011) [0, 15] = ([0xFF, 5], 0x202) := by decide
theorem test_andReg :
    seen (run1 (regs [(0, 0xF0), (1, 0x3C), (15, 5)]) 0x8012) [0, 15] = ([0x30, 5], 0x202) := by decide
theorem test_xorReg :
    seen (run1 (regs [(0, 0xF0), (1, 0x3C), (15, 5)]) 0x8013) [0, 15] = ([0xCC, 5], 0x202) := by decide
theorem test_addReg_S1 : seen (run1 (regs [(0, 0xFF), (1, 0x01)]) 0x8014) [0, 15] = ([0x00, 1], 0x202) := by
  decide
theorem test_addReg_into_vf : seen (run1 (regs [(15, 0xF0), (1, 0x20)]) 0x8F14) [15] = ([0x10], 0x202) := by
  decide
theorem test_subReg_S2 : seen (run1 (regs [(0, 1), (1, 2)]) 0x8015) [0, 15] = ([0xFF, 0], 0x202) := by decide
theorem test_subReg_equal : seen (run1 (regs [(0, 5), (1, 5)]) 0x8015) [0, 15] = ([0x00, 1], 0x202) := by decide
theorem test_shrReg_takes_vy :
    seen (run1 (regs [(0, 0xFF), (1, 0x05)]) 0x8016) [0, 15, 1] = ([0x02, 1, 0x05], 0x202) := by decide
theorem test_shrReg_old_vf : seen (run1 (regs [(15, 7)]) 0x80F6) [0, 15] = ([0x03, 1], 0x202) := by decide
theorem test_subnReg : seen (run1 (regs [(0, 2), (1, 5)]) 0x8017) [0, 15] = ([0x03, 1], 0x202) := by decide
theorem test_subnReg_borrow : seen (run1 (regs [(0, 5), (1, 2)]) 0x8017) [0, 15] = ([0xFD, 0], 0x202) := by
  decide
theorem test_shlReg : seen (run1 (regs [(1, 0x81)]) 0x801E) [0, 15, 1] = ([0x02, 1, 0x81], 0x202) := by decide
theorem test_shlReg_no_carry : seen (run1 (regs [(1, 0x40), (15, 1)]) 0x801E) [0, 15] = ([0x80, 0], 0x202) := by
  decide
theorem test_rnd_step_event :
    seen (after (stepWith 0xB7 (State.reset.withFetchWord 16 0xC30F))) [3] = ([0x07], 0x202) := by decide

/-! ## Index register and memory (part 2.5) -/

theorem test_ldI : (run1 State.reset 0xA2F0).i = 0x2F0 := by decide
theorem test_addI_no_12_bit_wrap :
    ((run1 (mach 0x200 0xFFF [(0, 1), (15, 9)] []) 0xF01E).i, seen (run1 (mach 0x200 0xFFF [(0, 1), (15, 9)] [])
      0xF01E) [15]) = (0x1000, [9], 0x202) := by decide
theorem test_addI_wraps : (run1 (mach 0x200 0x7FF0 [(0, 0xFF)] []) 0xF01E).i = 0x00EF := by decide
theorem test_ldF_whole_byte : (run1 (regs [(4, 0xFF)]) 0xF429).i = 0x4FB := by decide
theorem test_ldB : bytesAt (run1 (mach 0x200 0x300 [(0, 0xEA)] []) 0xF033) 0x300 4 = [2, 3, 4, 0] := by decide
theorem test_ldB_out_of_range :
    (run1 (mach 0x200 0xFFE [(0, 0xFF)] []) 0xF033).status = ⟨true, 2, 0x0200, 0xF033, 0x1000⟩ ∧
      bytesAt (run1 (mach 0x200 0xFFE [(0, 0xFF)] []) 0xF033) 0xFFE 2 = [0, 0] := by decide
theorem test_storeRegs :
    let t := run1 (mach 0x200 0x400 [(0, 0x11), (1, 0x22), (2, 0x33), (3, 0x44)] []) 0xF255
    (bytesAt t 0x400 4, t.i) = ([0x11, 0x22, 0x33, 0x00], 0x403) := by decide
theorem test_storeRegs_all_16_at_the_top :
    let t := run1 (mach 0x200 0xFF0 [(0, 0x11), (15, 0xEE)] []) 0xFF55
    (t.mem.read 0xFF0, t.mem.read 0xFFF, t.i) = (0x11, 0xEE, 0x1000) := by decide
theorem test_loadRegs :
    let t := run1 (mach 0x200 0x300 [(3, 0x99)] [(0x300, 2), (0x301, 3), (0x302, 4), (0x303, 5)]) 0xF265
    (seen t [0, 1, 2, 3], t.i) = (([2, 3, 4, 0x99], 0x202), 0x303) := by decide
theorem test_loadRegs_glyphs :
    seen (run1 State.reset 0xFF65) [0, 1, 4, 5, 14, 15] = ([0xF0, 0x90, 0xF0, 0x20, 0xF0, 0xF0], 0x202) := by
  decide

/-! ## Display (part 2.6, S3) -/

theorem test_cls : lit (run1 (light (regs [(15, 1)]) [0, 5, 2047]) 0x00E0) [0, 5, 2047] =
    ([false, false, false], 0) := by decide +kernel
theorem test_cls_keeps_vf : seen (run1 (light (regs [(15, 1)]) [5]) 0x00E0) [15] = ([1], 0x202) := by decide +kernel
theorem test_drw_S3 :
    lit (run1 (mach 0x200 0x300 [(0, 62), (1, 31)] [(0x300, 0xC0)]) 0xD011) [2046, 2047] =
      ([true, true], 2) := by decide +kernel
theorem test_drw_collision :
    seen (run1 (light (mach 0x200 0x300 [(0, 62), (1, 31)] [(0x300, 0xC0)]) [2047]) 0xD011) [15] =
      ([1], 0x202) := by decide +kernel

/-! ## Keypad and timers (part 2.7, S5) -/

theorem test_skp_pressed : (run1 (press (regs [(1, 5)]) [5]) 0xE19E).pc = 0x204 := by decide
theorem test_skp_no_such_key :
    (run1 (regs [(1, 0x10)]) 0xE19E).status = ⟨true, 5, 0x0200, 0xE19E, 0x0010⟩ := by decide
theorem test_sknp_not_pressed : (run1 (regs [(1, 5)]) 0xE1A1).pc = 0x204 := by decide
theorem test_sknp_pressed : (run1 (press (regs [(1, 5)]) [5]) 0xE1A1).pc = 0x202 := by decide
theorem test_ldVxK_waits : seen (run1 (regs [(3, 0x77)]) 0xF30A) [3] = ([0x77], 0x200) := by decide
theorem test_ldVxK_least : seen (run1 (press State.reset [9, 2]) 0xF30A) [3] = ([2], 0x202) := by decide
theorem test_ldVxDt : seen (run1 { State.reset with dt := 0x2A } 0xF507) [5] = ([0x2A], 0x202) := by decide
theorem test_ldDtVx : (run1 (regs [(5, 0x3C)]) 0xF515).dt = 0x3C := by decide
theorem test_ldStVx : (run1 (regs [(5, 0x03)]) 0xF518).st = 0x03 := by decide

/-! ## Host events (part 2.8, S4) -/

theorem test_tick_S4 :
    let s := { State.reset with st := 3, dt := 2 }
    ((ticks 4 s).1.st, (ticks 4 s).1.dt, (ticks 4 s).2) = (0, 0, [false, false, true, false]) := by decide
theorem test_keySet : (keySet 5 true State.reset).map (fun t => t.key[5]) = some true := by decide
theorem test_keySet_refused : keySet 16 true State.reset = none := by decide
theorem test_load_shorter_over_longer :
    ((load [0x11, 0x22, 0x33] State.reset).bind (load [0xAA])).map (fun t => bytesAt t 0x200 3) =
      some [0xAA, 0x22, 0x33] := by decide

/-! ## Witnesses: the hypotheses of the statements are met -/

theorem witness_EncodeOfDecodedIsTheWord : decode 0xFF65 = some (.loadRegs 15) := by decide

theorem witness_DecodeTreeAgreesWithTheOpcodeTable :
    decode 0x5121 = none ∧ decode 0x801E = some (.shlReg 0 1) := by decide

theorem witness_AtMostOneRowSelectsAWord :
    ⟨"RET", 0xFFFF, 0x00EE⟩ ∈ opcodeTable ∧ (0x00EE : Word) &&& 0xFFFF = 0x00EE := by decide

theorem witness_StepRunsTheDecodedInstruction :
    let s := mach 0xFFE 0 [] [(0xFFE, 0x6A), (0xFFF, 0x7F)]
    s.halt = false ∧ s.pc.toNat ≤ 0xFFE ∧
      decode (BitVec.ofNat 16 ((s.mem.read s.pc.toNat).toNat * 256 + (s.mem.read (s.pc.toNat + 1)).toNat)) =
        some (.ldImm 10 0x7F) := by decide

theorem witness_FetchOutsideMemoryFaults :
    ((mach 0xFFF 0 [] []).halt = false ∧ 0xFFF ≤ (mach 0xFFF 0 [] []).pc.toNat) ∧
      ((mach 0x1000 0 [] []).halt = false ∧ 0xFFF ≤ (mach 0x1000 0 [] []).pc.toNat) := by decide

theorem witness_IllegalWordFaults :
    let s := mach 0xFFE 0 [] [(0xFFE, 0x51), (0xFFF, 0x21)]
    s.halt = false ∧ s.pc.toNat ≤ 0xFFE ∧
      (0x5121 : Word).toNat = (s.mem.read s.pc.toNat).toNat * 256 + (s.mem.read (s.pc.toNat + 1)).toNat ∧
      ∀ r ∈ opcodeTable, (0x5121 : Word) &&& r.mask ≠ r.bits := by decide

theorem witness_HaltedStepsChangeNothing : ({ State.reset with halt := true } : State).halt = true := by decide

/-- Every row of R200 at the two sides of its boundary. -/
theorem witness_InstructionsFaultExactlyWhereListed :
    listedFault (.ldB 0) (mach 0x200 0xFFD [] []) = none ∧
    listedFault (.ldB 0) (mach 0x200 0xFFE [] []) = some (.outOfBounds, 0x1000) ∧
    listedFault (.storeRegs 15) (mach 0x200 0xFF0 [] []) = none ∧
    listedFault (.storeRegs 15) (mach 0x200 0xFF1 [] []) = some (.outOfBounds, 0x1000) ∧
    listedFault (.loadRegs 0) (mach 0x200 0xFFF [] []) = none ∧
    listedFault (.loadRegs 0) (mach 0x200 0x2000 [] []) = some (.outOfBounds, 0x2000) ∧
    listedFault (.drw 0 1 0) (mach 0x200 0x7FFF [] []) = none ∧
    listedFault (.drw 0 1 15) (mach 0x200 0xFF1 [] []) = none ∧
    listedFault (.drw 0 1 15) (mach 0x200 0xFF2 [] []) = some (.outOfBounds, 0x1000) ∧
    listedFault (.call 0x300) { State.reset with sp := 15 } = none ∧
    listedFault (.call 0x300) { State.reset with sp := 16 } = some (.stackOverflow, 16) ∧
    listedFault .ret { State.reset with sp := 1 } = none ∧
    listedFault .ret State.reset = some (.stackUnderflow, 0) ∧
    listedFault (.skp 1) (regs [(1, 15)]) = none ∧
    listedFault (.skp 1) (regs [(1, 16)]) = some (.invalidKeyIndex, 16) ∧
    listedFault (.sknp 1) (regs [(1, 255)]) = some (.invalidKeyIndex, 255) := by decide

/-- Both outcomes of the statement happen. -/
theorem witness_StepCommitsOrChangesOnlyTheFaultRecord :
    (after (step State.reset)).halt = false ∧ (after (step (mach 0xFFF 0 [] []))).cause ≠ .none := by decide

/-- The invariant holds in a state with registers, memory, I and a return address at their bounds. -/
def bounds : State :=
  { mach 0xFFE 0x7FFF [(0, 0xFF)] [(0x200, 0x60), (0xFFE, 0xB1), (0xFFF, 0x23)] with
    sp := 16, stack := Vector.replicate 16 0x1000 }

theorem witness_StepKeepsTheInvariant : bounds.Inv ∧ ∃ t, step bounds = .next t ∧ t.pc = 0x0222 :=
  ⟨⟨by decide, by decide, by decide, by decide, fun _ => ⟨rfl, rfl, rfl, rfl⟩, fun h => by cases h⟩,
   _, rfl, by decide⟩

/-- A halted state has the invariant too. -/
theorem witness_TransactionsKeepTheInvariant : (after (step (mach 0xFFF 0 [] []))).Inv :=
  ⟨by decide, by decide, by decide, by decide, fun h => (by cases h), fun _ => ⟨by decide, rfl⟩⟩

theorem witness_ReachableBoundsOnPcAndIndex : ∃ s, Reachable s ∧ s.dt = 0 ∧ s.pc = 0x202 :=
  ⟨after (step State.reset), .transact (e := .step 0) (r := .nothing) .reset rfl, rfl, by decide⟩

/-- Each clause of the statement has an instruction that changes the piece: an ordinary register, VF as a flag, the
last register FX65 loads; I, PC, the stack, memory, the timers, the fault record, the counter of draws. -/
theorem witness_EachPieceOfStateHasItsWriters :
    (after (exec (.ldImm 14 7) State.reset)).readV 14 ≠ State.reset.readV 14 ∧
    (after (exec (.addReg 0 1) (regs [(0, 0xFF), (1, 1)]))).readV 15 ≠ (regs [(0, 0xFF), (1, 1)]).readV 15 ∧
    (after (exec (.loadRegs 4) State.reset)).readV 4 ≠ State.reset.readV 4 ∧
    namesAsDestination (.loadRegs 4) 4 = true ∧ namesAsDestination (.loadRegs 4) 5 = false ∧
    (after (exec .nop State.reset)).pc ≠ State.reset.pc ∧
    (after (exec .ret State.reset)).cause ≠ State.reset.cause ∧ listedFault .ret State.reset ≠ none ∧
    (after (exec (.rnd 0 0) State.reset)).rndCount ≠ State.reset.rndCount := by decide
theorem witness_EachPieceOfStateHasItsWriters_2 :
    (run1 State.reset 0xA001).i ≠ State.reset.i ∧
    (after (exec (.ldDtVx 1) (regs [(1, 1)]))).dt ≠ 0 ∧ (after (exec (.ldStVx 1) (regs [(1, 1)]))).st ≠ 0 ∧
    (after (exec (.call 0x300) State.reset)).sp.val = 0 + 1 ∧
    (after (exec (.call 0x300) State.reset)).stack ≠ State.reset.stack ∧
    (after (exec .ret { State.reset with sp := 1 })).sp.val + 1 = 1 ∧
    (after (exec (.ldB 0) (regs [(0, 9)]))).mem ≠ [] ∧ (after (exec (.storeRegs 0) (regs [(0, 9)]))).mem ≠ [] := by
  decide
theorem witness_EachPieceOfStateHasItsWriters_display :
    (after (exec .cls (light State.reset [7]))).disp ≠ (light State.reset [7]).disp ∧
    (after (exec (.drw 0 1 1) State.reset)).disp ≠ State.reset.disp :=
  ⟨fun h => absurd (congrArg (fun d => d[7]) h) (by decide +kernel),
   fun h => absurd (congrArg (fun d => d[0]) h) (by decide +kernel)⟩

theorem witness_VfChangesOnlyAsFlagOrDestination :
    (after (exec (.addReg 0 1) (regs [(0, 0xFF), (1, 1)]))).readV 15 ≠ (0 : Byte) ∧
    (after (exec (.ldImm 15 7) State.reset)).readV 15 ≠ (0 : Byte) := by decide

theorem witness_SoundTimerIsNeverRead : ∃ t, exec (.ldStVx 1) (regs [(1, 3)]) = .next t ∧ t.st = 3 :=
  ⟨_, rfl, rfl⟩

theorem witness_FaultRecordIsInvisibleToInstructions :
    listedFault (.call 0x300) State.reset = none ∧ ∃ t, exec (.call 0x300) State.reset = .next t ∧ t.sp = 1 :=
  ⟨rfl, _, rfl, rfl⟩

theorem witness_JumpLoadsPc : State.reset.pc.toNat = (0x200 : Addr12).toNat := by decide

theorem witness_CallPushesThePostFetchPc :
    State.reset.sp.val < 16 ∧ ({ State.reset with sp := 15 } : State).sp.val < 16 := by decide

theorem witness_ReturnPopsPc :
    0 < ({ State.reset with sp := 1 } : State).sp.val ∧ 0 < ({ State.reset with sp := 16 } : State).sp.val := by
  decide

theorem witness_ReturnUndoesCall :
    ({ State.reset with sp := 15 } : State).sp.val < 16 ∧
    ∃ t u, exec (.call 0x300) { State.reset with sp := 15 } = .next t ∧
      u = { regs [(1, 7)] with sp := t.sp, stack := t.stack } ∧ u.sp = t.sp ∧ u.stack = t.stack :=
  ⟨by decide, _, _, rfl, rfl, rfl, rfl⟩

/-- X ≠ F at its boundary (E), and the sum on both sides of 255; and X = F. -/
theorem witness_AddSetsCarry :
    (14 : Reg) ≠ 15 ∧
    ¬((regs [(14, 0xFE), (1, 1)]).readV 14).toNat + ((regs [(14, 0xFE), (1, 1)]).readV 1).toNat > 255 ∧
    ((regs [(14, 0xFF), (1, 1)]).readV 14).toNat + ((regs [(14, 0xFF), (1, 1)]).readV 1).toNat > 255 := by decide

/-- Equality and a borrow of 1. -/
theorem witness_SubtractionsSetNoBorrow :
    (14 : Reg) ≠ 15 ∧
    ((regs [(14, 5), (1, 5)]).readV 1).toNat ≤ ((regs [(14, 5), (1, 5)]).readV 14).toNat ∧
    ¬((regs [(14, 5), (1, 6)]).readV 1).toNat ≤ ((regs [(14, 5), (1, 6)]).readV 14).toNat := by decide

theorem witness_ShiftsTakeVyAndSetVf :
    (14 : Reg) ≠ 15 ∧ ((regs [(1, 0x81)]).readV 1).toNat % 2 = 1 ∧ ((regs [(1, 0x81)]).readV 1).toNat / 128 = 1 := by
  decide

theorem witness_RandomByteIsMasked :
    ∃ t, exec (.rnd 3 0) (regs [(3, 9)]) = .next t ∧ (0 : Byte) = 0 ∧ t.rndCount = 1 := ⟨_, rfl, rfl, rfl⟩

/-- A Step of CXNN, and a Step of another instruction. -/
theorem witness_StepEventSuppliesTheRandomByte :
    (let s := State.reset.withFetchWord 16 0xC30F
     s.halt = false ∧ s.pc.toNat ≤ 0xFFE ∧ s.mem.readWord s.pc.toNat = encode (.rnd 3 0x0F)) ∧
    (let s := (mach 0xFFE 0 [] []).withFetchWord 16 0x6A7F
     s.halt = false ∧ s.pc.toNat ≤ 0xFFE ∧ s.mem.readWord s.pc.toNat = encode (.ldImm 10 0x7F)) := by decide

/-- I at 0 and at the highest value in range. -/
theorem witness_BcdStoresThreeDigits :
    (State.reset.mem.wf = true ∧ State.reset.i.toNat + 2 ≤ 0xFFF) ∧
    ((mach 0x200 0xFFD [] [(0xFFF, 9)]).mem.wf = true ∧ (mach 0x200 0xFFD [] [(0xFFF, 9)]).i.toNat + 2 ≤ 0xFFF) := by
  decide

theorem witness_StoreRegistersAtIndex :
    (let s := mach 0x200 0xFFF [] [(0xFFF, 9)]; s.mem.wf = true ∧ s.i.toNat + (0 : Reg).val ≤ 0xFFF) ∧
    (let s := mach 0x200 0xFF0 [] [(0xFFF, 9)]; s.mem.wf = true ∧ s.i.toNat + (15 : Reg).val ≤ 0xFFF) := by decide

theorem witness_LoadRegistersFromIndex :
    (mach 0x200 0xFFF [] []).i.toNat + (0 : Reg).val ≤ 0xFFF ∧
    (mach 0x200 0xFF0 [] []).i.toNat + (15 : Reg).val ≤ 0xFFF := by decide

theorem witness_LoadAfterStoreRestoresRegisters :
    let s := mach 0x200 0xFF0 [(15, 7)] []
    s.mem.wf = true ∧ s.i.toNat + (15 : Reg).val ≤ 0xFFF ∧
      ∃ t u, exec (.storeRegs 15) s = .next t ∧ u = { t with i := s.i, v := State.reset.v } ∧
        u.mem = t.mem ∧ u.i = s.i :=
  ⟨by decide, by decide, _, _, rfl, rfl, rfl, rfl⟩

/-- The hypotheses of both clauses at their bounds; PC at the stored bytes, at their end and one byte before. -/
theorem witness_StoredWordIsFetchedNext :
    (let s := mach 0xFFC 0xFF0 [] []
     s.mem.wf = true ∧ (s.pc + 2).toNat ≤ 0xFFE ∧ s.i.toNat + (15 : Reg).val ≤ 0xFFF) ∧
    (let s := mach 0xFFC 0xFFD [] []
     s.mem.wf = true ∧ (s.pc + 2).toNat ≤ 0xFFE ∧ s.i.toNat + 2 ≤ 0xFFF) ∧
    (let s := mach 0x300 0x302 [(0, 0x6A), (1, 0x7F)] [(0x303, 0xEE)]
     s.halt = false ∧ decode (wordOfBytes (byteWithStored s [0x6A, 0x7F] 0x302) (byteWithStored s [0x6A, 0x7F] 0x303))
       = some (.ldImm 10 0x7F)) ∧
    (let s := mach 0x300 0x303 [(0, 0x7F)] [(0x302, 0x6A)]
     (after (exec (.storeRegs 0) s)).fetch = some 0x6A7F) ∧
    (let s := mach 0x300 0x300 [(0, 100)] [(0x302, 0x6A), (0x303, 0xE0)]
     (after (exec (.ldB 0) s)).fetch = some 0x00E0) := by decide

theorem witness_TimerInstructionsMoveBytes :
    (after (exec (.ldStVx 5) (regs [(5, 3)]))).st = 3 ∧
      (ticks 4 (after (exec (.ldStVx 5) (regs [(5, 3)])))).2 = [false, false, true, false] := by decide

/-- N = 0 needs no address; N = 15 at the highest I in range. -/
theorem witness_DrawInvertsCoveredPixels :
    ((0 : Fin 16).val = 0) ∧ (mach 0x200 0xFF1 [] []).i.toNat + (15 : Fin 16).val - 1 ≤ 0xFFF ∧
    Covers (mach 0x200 0 [(0, 63), (1, 31)] []) 0 1 2 63 31 ∧ ¬Covers State.reset 0 1 1 4 0 := by
  refine ⟨rfl, by decide, ⟨0, by decide, 0, by decide, by decide, by decide, by decide⟩, ?_⟩
  rintro ⟨row, hr, col, hc, hb, hx, -⟩
  have hv : (State.reset.readV 0).toNat = 0 := rfl
  have h0 : row = 0 := by have : (1 : Fin 16).val = 1 := rfl; omega
  have h4 : col = 4 := by omega
  subst h0 h4
  exact absurd hb (by decide)

theorem witness_DrawingTwiceRestoresTheDisplay :
    let s := State.reset
    (s.i.toNat + (5 : Fin 16).val - 1 ≤ 0xFFF) ∧
    ∃ t u, exec (.drw 0 1 5) s = .next t ∧ t.readV 0 = s.readV 0 ∧ t.readV 1 = s.readV 1 ∧
      exec (.drw 0 1 5) t = .next u :=
  ⟨by decide, _, _, rfl, by simp [vf], by simp [vf], rfl⟩

theorem witness_KeySkipsTestTheFlag :
    ((regs [(1, 0)]).readV 1).toNat = (0 : Fin 16).val ∧ ((regs [(1, 15)]).readV 1).toNat = (15 : Fin 16).val := by
  decide

theorem witness_KeyWaitPollsTheLeastKey :
    ((press State.reset [15]).key[(15 : Fin 16)] = true ∧
      ∀ j : Fin 16, j < 15 → (press State.reset [15]).key[j] = false) ∧
    ((press State.reset [0, 9]).key[(0 : Fin 16)] = true ∧
      ∀ j : Fin 16, j < 0 → (press State.reset [0, 9]).key[j] = false) ∧
    ∀ k : Fin 16, State.reset.key[k] = false := by decide

theorem witness_KeySetWritesOneFlag : (15 < 16) ∧ (16 ≤ 16) := by decide

theorem witness_LoadCopiesTheProgram :
    State.reset.mem.wf = true ∧ (List.replicate 3584 (7 : Byte)).length ≤ 3584 ∧
    3584 < (List.replicate 3585 (7 : Byte)).length := by
  exact ⟨by decide, by rw [List.length_replicate], by rw [List.length_replicate]; decide⟩

theorem witness_HostEventsIgnoreTheHaltLatch :
    ∃ t r, (Event.tick ≠ .reset ∧ ∀ b, Event.tick ≠ .step b) ∧
      transact .tick { State.reset with st := 1 } = .next (t, r) ∧ r = .beep true :=
  ⟨_, _, ⟨by decide, by intro b h; cases h⟩, rfl, rfl⟩

theorem witness_ScreenIsACopyOfTheCells : 63 < 64 ∧ 31 < 32 ∧ 63 + 64 * 31 = 2047 := by decide

theorem witness_OneBeepOnTheTickThatEndsTheSound :
    let s := { State.reset with st := 255 }
    (254 < 255 ∧ 254 + 1 = s.st.toNat) ∧ (0 < 1 ∧ 0 + 1 = (tick { s with st := 2 }).st.toNat) := by decide

theorem witness_UnloadedMachineRunsNopsThenFaults : 0 ≤ 1792 ∧ 1792 ≤ 1792 := by decide

end Sys2Proof.Tests
end

/-! # Control flow (41_control_flow.md): the proofs of the two jumps

Both jumps replace the post-fetch PC by their target, so what they leave alone is a fact about
`State.setPc` after `State.advance`; what their targets are is `addrOfImm_toNat` and `offsetTarget_toNat`. -/

namespace Sys2Proof.Machine

/-! The meanings of the jumps. -/

theorem exec_jp (nnn : Addr12) (s : State) :
    exec (.jp nnn) s = .next (s.advance.setPc (addrOfImm nnn)) := rfl

theorem exec_jpV0 (nnn : Addr12) (s : State) :
    exec (.jpV0 nnn) s = .next (s.advance.setPc (offsetTarget (s.readV 0) nnn)) := rfl

/-! Loading PC after the fetch. -/

/-- The write to PC stands, whatever the fetch left there. -/
theorem setPc_advance (s : State) (a : Word) : s.advance.setPc a = s.setPc a := rfl

/-- Loading PC with the value it holds is no change. -/
theorem setPc_self (s : State) : s.setPc s.pc = s := rfl

theorem onlyPc_setPc (s : State) (a : Word) : OnlyPc s (s.setPc a) :=
  ⟨rfl, fun _ => rfl⟩

/-! The bound R134 gives for the target of `JP V0, nnn`. -/

theorem offsetTarget_toNat_le (v0 : Byte) (nnn : Addr12) : (offsetTarget v0 nnn).toNat ≤ 0x10FE := by
  have hv : v0.toNat < 256 := v0.isLt
  have hn : nnn.toNat < 4096 := nnn.isLt
  rw [offsetTarget_toNat]
  omega

/-! The obligations. -/

/-- Settles O23: the target is NNN unreduced, so a jump to the PC's own value writes PC with itself. -/
theorem jumpLoadsPc : Obligations.JumpLoadsPc := by
  intro nnn s
  refine ⟨s.setPc (addrOfImm nnn), ?_, onlyPc_setPc s _, addrOfImm_toNat nnn, fun hself => ?_⟩
  · rw [exec_jp, setPc_advance]
  · have hpc : addrOfImm nnn = s.pc :=
      BitVec.eq_of_toNat_eq ((addrOfImm_toNat nnn).trans hself.symm)
    rw [hpc, setPc_self]

/-- Settles O24: the sum of a byte and a 12-bit address fits 16 bits, so the reduction never acts. -/
theorem jumpWithOffsetAddsV0 : Obligations.JumpWithOffsetAddsV0 := by
  intro nnn s
  refine ⟨s.setPc (offsetTarget (s.readV 0) nnn), ?_, onlyPc_setPc s _,
    offsetTarget_toNat _ nnn, offsetTarget_toNat_le _ nnn⟩
  rw [exec_jpV0, setPc_advance]

end Sys2Proof.Machine

/-! # Conditional skips on registers (42_skips.md): the proofs of the four skips

Each skip answers `s.advance.skipIf c` for its own condition `c`, so one frame lemma and one lemma on PC
serve all four; what is left to each is its condition. -/

namespace Sys2Proof.Machine

/-! What a skip does (R140). -/

/-- Whether or not it is taken, a skip writes PC alone. -/
theorem onlyPc_skipIf_advance (s : State) (c : Bool) : OnlyPc s (s.advance.skipIf c) := by
  cases c with
  | false => exact onlyPc_setPc s _
  | true => exact onlyPc_setPc s _

/-- A skip moves PC by 4 if its condition holds and by 2 if not. -/
theorem skipIf_advance_pc (s : State) (p : Prop) [Decidable p] :
    (s.advance.skipIf (decide p)).pc = if p then s.pc + 4 else s.pc + 2 := by
  have htwice : s.pc + 2 + 2 = s.pc + 4 := BitVec.add_assoc s.pc 2 2
  rw [skipIf_pc, advance_pc, htwice]
  simp only [decide_eq_true_eq]

/-! The meanings of the skips. -/

theorem exec_seImm (x : Reg) (nn : Byte) (s : State) :
    exec (.seImm x nn) s = .next (s.advance.skipIf (decide (s.readV x = nn))) := rfl

theorem exec_sneImm (x : Reg) (nn : Byte) (s : State) :
    exec (.sneImm x nn) s = .next (s.advance.skipIf (decide (s.readV x ≠ nn))) := rfl

theorem exec_seReg (x y : Reg) (s : State) :
    exec (.seReg x y) s = .next (s.advance.skipIf (decide (s.readV x = s.readV y))) := rfl

theorem exec_sneReg (x y : Reg) (s : State) :
    exec (.sneReg x y) s = .next (s.advance.skipIf (decide (s.readV x ≠ s.readV y))) := rfl

/-! The obligations. -/

/-- Settles O28: both are skips, on V[X] = NN and on its negation. -/
theorem immediateSkipsMovePc : Obligations.ImmediateSkipsMovePc := by
  intro x nn s
  constructor
  · exact ⟨_, exec_seImm x nn s, onlyPc_skipIf_advance s _, skipIf_advance_pc s _⟩
  · exact ⟨_, exec_sneImm x nn s, onlyPc_skipIf_advance s _, skipIf_advance_pc s _⟩

/-- Settles O29: both are skips, on V[X] = V[Y] and on its negation; X = Y decides the condition. -/
theorem registerSkipsMovePc : Obligations.RegisterSkipsMovePc := by
  intro x y s
  constructor
  · refine ⟨_, exec_seReg x y s, onlyPc_skipIf_advance s _, skipIf_advance_pc s _, fun hxy => ?_⟩
    have heq : s.readV x = s.readV y := congrArg s.readV hxy
    rw [skipIf_advance_pc, if_pos heq]
  · refine ⟨_, exec_sneReg x y s, onlyPc_skipIf_advance s _, skipIf_advance_pc s _, fun hxy => ?_⟩
    have heq : s.readV x = s.readV y := congrArg s.readV hxy
    rw [skipIf_advance_pc, if_neg (not_not_intro heq)]

end Sys2Proof.Machine

/-! # Loads, the immediate addition and logic (43_load_alu.md): the proofs of the six instructions without a flag

Each of them answers `s.advance.writeV x b` for its own byte `b`, so the frame is said once for that update;
what is left to each is what `b` is. -/

namespace Sys2Proof.Machine

/-! Writing one register after the fetch. -/

theorem onlyRegsAndPc_writeV_advance (s : State) (x : Reg) (b : Byte) :
    OnlyRegsAndPc s (s.advance.writeV x b) :=
  ⟨rfl, fun _ => rfl⟩

theorem writeV_advance_pc (s : State) (x : Reg) (b : Byte) : (s.advance.writeV x b).pc = s.pc + 2 := by
  rw [writeV_pc, advance_pc]

theorem readV_writeV_self (s : State) (x : Reg) (b : Byte) : (s.writeV x b).readV x = b := by
  rw [readV_writeV, if_pos rfl]

/-- VF included, unless it is the register written. -/
theorem otherRegsSame_writeV_advance (s : State) (x : Reg) (b : Byte) :
    OtherRegsSame s (s.advance.writeV x b) x := by
  intro q hq
  rw [readV_writeV, if_neg hq.symm, readV_advance]

/-! The meanings of the instructions. -/

theorem exec_ldImm (x : Reg) (nn : Byte) (s : State) :
    exec (.ldImm x nn) s = .next (s.advance.writeV x nn) := rfl

theorem exec_ldReg (x y : Reg) (s : State) :
    exec (.ldReg x y) s = .next (s.advance.writeV x (s.readV y)) := rfl

theorem exec_addImm (x : Reg) (nn : Byte) (s : State) :
    exec (.addImm x nn) s =
      .next (s.advance.writeV x (BitVec.ofNat 8 ((s.readV x).toNat + nn.toNat))) := rfl

theorem exec_orReg (x y : Reg) (s : State) :
    exec (.orReg x y) s = .next (s.advance.writeV x (s.readV x ||| s.readV y)) := rfl

theorem exec_andReg (x y : Reg) (s : State) :
    exec (.andReg x y) s = .next (s.advance.writeV x (s.readV x &&& s.readV y)) := rfl

theorem exec_xorReg (x y : Reg) (s : State) :
    exec (.xorReg x y) s = .next (s.advance.writeV x (s.readV x ^^^ s.readV y)) := rfl

/-! The obligations. -/

/-- Settles O30: both are one register write, of NN and of V[Y]. -/
theorem loadsWriteTheDestination : Obligations.LoadsWriteTheDestination := by
  intro x y nn s
  constructor
  · exact ⟨_, exec_ldImm x nn s, onlyRegsAndPc_writeV_advance s x _, writeV_advance_pc s x _,
      readV_writeV_self _ x _, otherRegsSame_writeV_advance s x _⟩
  · exact ⟨_, exec_ldReg x y s, onlyRegsAndPc_writeV_advance s x _, writeV_advance_pc s x _,
      readV_writeV_self _ x _, otherRegsSame_writeV_advance s x _⟩

/-- Settles O31: the byte written is the integer sum, which a byte holds modulo 256. -/
theorem addImmediateWrapsWithoutCarry : Obligations.AddImmediateWrapsWithoutCarry := by
  intro x nn s
  refine ⟨_, exec_addImm x nn s, onlyRegsAndPc_writeV_advance s x _, writeV_advance_pc s x _, ?_,
    otherRegsSame_writeV_advance s x _⟩
  rw [readV_writeV_self]
  exact BitVec.toNat_ofNat _ 8

/-- Settles O32: each is one register write, of a byte whose bits are those of `|||`, `&&&` and `^^^`. -/
theorem logicIsBitwiseAndLeavesVf : Obligations.LogicIsBitwiseAndLeavesVf := by
  intro x y s
  refine ⟨?or, ?and, ?xor⟩
  case or =>
    refine ⟨_, exec_orReg x y s, onlyRegsAndPc_writeV_advance s x _, writeV_advance_pc s x _,
      otherRegsSame_writeV_advance s x _, fun k _ => ?_⟩
    rw [readV_writeV_self, BitVec.getLsbD_or]
  case and =>
    refine ⟨_, exec_andReg x y s, onlyRegsAndPc_writeV_advance s x _, writeV_advance_pc s x _,
      otherRegsSame_writeV_advance s x _, fun k _ => ?_⟩
    rw [readV_writeV_self, BitVec.getLsbD_and]
  case xor =>
    refine ⟨_, exec_xorReg x y s, onlyRegsAndPc_writeV_advance s x _, writeV_advance_pc s x _,
      otherRegsSame_writeV_advance s x _, fun k _ => ?_⟩
    rw [readV_writeV_self, BitVec.getLsbD_xor]

end Sys2Proof.Machine

/-! # The index register (44_index_memory.md): the proofs of `LD I, nnn` and `ADD I, Vx`

Both answer `s.advance.setI a` for their own address `a`, so the frame is said once for that update; what is
left to each is what `a` is: `addrOfImm_toNat` and `indexSum_toNat`. -/

namespace Sys2Proof.Machine

/-! Loading I after the fetch. -/

theorem onlyIndexAndPc_setI_advance (s : State) (a : Word) : OnlyIndexAndPc s (s.advance.setI a) :=
  ⟨rfl, fun _ => rfl⟩

theorem setI_advance_pc (s : State) (a : Word) : (s.advance.setI a).pc = s.pc + 2 := by
  rw [setI_pc, advance_pc]

/-- No register is written, VF included. -/
theorem readV_setI_advance (s : State) (a : Word) (q : Reg) : (s.advance.setI a).readV q = s.readV q := by
  rw [readV_setI, readV_advance]

/-- Zero extension: the bits past the 12 of NNN are 0 (R170). -/
theorem addrOfImm_getLsbD_of_le (nnn : Addr12) {k : Nat} (hk : 12 ≤ k) : (addrOfImm nnn).getLsbD k = false := by
  have hpast : nnn.getLsbD k = false := BitVec.getLsbD_of_ge nnn k hk
  rw [addrOfImm, BitVec.getLsbD_setWidth, hpast, Bool.and_false]

/-! The meanings of the instructions. -/

theorem exec_ldI (nnn : Addr12) (s : State) :
    exec (.ldI nnn) s = .next (s.advance.setI (addrOfImm nnn)) := rfl

theorem exec_addI (x : Reg) (s : State) :
    exec (.addI x) s = .next (s.advance.setI (indexSum s.i (s.readV x))) := rfl

/-! The obligations. -/

/-- Settles O38: I is loaded with the zero extension of NNN. -/
theorem loadIndexImmediate : Obligations.LoadIndexImmediate := by
  intro nnn s
  refine ⟨_, exec_ldI nnn s, onlyIndexAndPc_setI_advance s _, setI_advance_pc s _, ?value, fun k hk => ?highBits⟩
  case value => rw [setI_i, addrOfImm_toNat]
  case highBits => rw [setI_i, addrOfImm_getLsbD_of_le nnn hk]

/-- Settles O40: I is loaded with the sum of R171, and the update writes no register. -/
theorem addToIndexWrapsAt32768 : Obligations.AddToIndexWrapsAt32768 := by
  intro x s
  refine ⟨_, exec_addI x s, onlyIndexAndPc_setI_advance s _, setI_advance_pc s _, ?sum,
    readV_setI_advance s _ 15⟩
  rw [setI_i, indexSum_toNat]

end Sys2Proof.Machine

/-! # The display (45_display.md): the proof of `CLS`

`CLS` answers `s.advance.setDisp` of the all-off display; the frame is said once for that update, for any
display, and `Vector.getElem_replicate` reads the cells. -/

namespace Sys2Proof.Machine

/-! Replacing the display after the fetch. -/

/-- The display is the only state but PC that the update writes. -/
theorem setDisp_advance_frame (s : State) (d : Vector Bool 2048) :
    s.advance.setDisp d = { s with pc := s.pc + 2, disp := (s.advance.setDisp d).disp } := rfl

theorem sameBytes_setDisp_advance (s : State) (d : Vector Bool 2048) : SameBytes s (s.advance.setDisp d) :=
  fun a => by rw [setDisp_mem, advance_mem]

/-! The meaning of the instruction. -/

theorem exec_cls (s : State) :
    exec .cls s = .next (s.advance.setDisp (Vector.replicate 2048 false)) := rfl

/-! The obligation. -/

/-- Settles O46: the display becomes the one whose every cell is off, and the update writes nothing else. -/
theorem clearTurnsEveryPixelOff : Obligations.ClearTurnsEveryPixelOff := by
  intro s
  refine ⟨_, exec_cls s, setDisp_advance_frame s _, sameBytes_setDisp_advance s _, fun k => ?off⟩
  rw [setDisp_disp, Fin.getElem_fin, Vector.getElem_replicate]

end Sys2Proof.Machine

/-! # Keypad and timers (46_keypad_timers.md): the proofs of `LD Vx, K` and of the three timer instructions

`LD Vx, K` rests on `execLdVxK_cases` and on the least pressed key being one key. The timer instructions move
one byte each; when FX18's Beep comes is an induction over the Ticks, which takes one from ST at a time. -/

namespace Sys2Proof.Machine

/-! The least pressed key. -/

theorem leastKey_unique {keys : Vector Bool 16} {j k : Fin 16}
    (hj : keys[j] = true) (hleast_j : ∀ q : Fin 16, q < j → keys[q] = false)
    (hk : keys[k] = true) (hleast_k : ∀ q : Fin 16, q < k → keys[q] = false) : j = k := by
  rcases lt_trichotomy j k with hlt | heq | hgt
  · exact absurd hj (Bool.eq_false_iff.1 (hleast_k j hlt))
  · exact heq
  · exact absurd hk (Bool.eq_false_iff.1 (hleast_j k hgt))

/-- A key index fits the byte that FX0A writes. -/
theorem keyByte_toNat (k : Fin 16) : (BitVec.ofNat 8 k.val).toNat = k.val := by
  have hk : k.val < 16 := k.isLt
  rw [BitVec.toNat_ofNat]
  omega

/-! The meanings of the instructions. -/

theorem exec_ldVxK (x : Reg) (s : State) : exec (.ldVxK x) s = execLdVxK x s := rfl

theorem exec_ldVxDt (x : Reg) (s : State) : exec (.ldVxDt x) s = .next (s.advance.writeV x s.dt) := rfl

theorem exec_ldDtVx (x : Reg) (s : State) : exec (.ldDtVx x) s = .next (s.advance.setDt (s.readV x)) := rfl

theorem exec_ldStVx (x : Reg) (s : State) : exec (.ldStVx x) s = .next (s.advance.setSt (s.readV x)) := rfl

theorem exec_ldVxK_of_leastKey {s : State} {k : Fin 16} (hk : s.key[k] = true)
    (hleast : ∀ j : Fin 16, j < k → s.key[j] = false) (x : Reg) :
    exec (.ldVxK x) s = .next (s.advance.writeV x (BitVec.ofNat 8 k.val)) := by
  rw [exec_ldVxK]
  rcases execLdVxK_cases x s with ⟨j, hj, hleast_j, hexec⟩ | ⟨hnone, -⟩
  · rw [hexec, leastKey_unique hj hleast_j hk hleast]
  · exact absurd hk (Bool.eq_false_iff.1 (hnone k))

theorem exec_ldVxK_of_noKey {s : State} (hnone : ∀ k : Fin 16, s.key[k] = false) (x : Reg) :
    exec (.ldVxK x) s = .next s := by
  rw [exec_ldVxK]
  rcases execLdVxK_cases x s with ⟨j, hj, -, -⟩ | ⟨-, hexec⟩
  · exact absurd hj (Bool.eq_false_iff.1 (hnone j))
  · exact hexec

/-! Ticks and their Beeps (60_exceptions.md R211, R212). -/

/-- The floor at 0 is that of subtraction on `Nat`. -/
theorem countDown_toNat (b : Byte) : (countDown b).toNat = b.toNat - 1 := by
  unfold countDown
  split
  · next hzero => rw [hzero]; rfl
  · next hpos => bv_omega

@[simp] theorem tick_dt (s : State) : (tick s).dt = countDown s.dt := rfl
@[simp] theorem tick_st (s : State) : (tick s).st = countDown s.st := rfl

theorem beeps_iff (s : State) : beeps s = true ↔ s.st.toNat = 1 := by
  rw [beeps, decide_eq_true_iff, ← BitVec.toNat_inj]
  rfl

theorem ticks_succ_beep_zero (k : Nat) (s : State) : (ticks (k + 1) s).2[0]? = some (beeps s) := rfl

theorem ticks_succ_beep_succ (k m : Nat) (s : State) :
    (ticks (k + 1) s).2[m + 1]? = (ticks k (tick s)).2[m]? := rfl

/-- Of the Ticks after a state, the one whose number is ST beeps and no other. -/
theorem ticks_beep_iff (k m : Nat) (s : State) (hm : m < k) :
    (ticks k s).2[m]? = some true ↔ m + 1 = s.st.toNat := by
  induction k generalizing m s with
  | zero => exact absurd hm (Nat.not_lt_zero m)
  | succ k ih =>
    cases m with
    | zero => rw [ticks_succ_beep_zero, Option.some_inj, beeps_iff, zero_add, eq_comm]
    | succ m =>
      rw [ticks_succ_beep_succ, ih m (tick s) (Nat.lt_of_succ_lt_succ hm), tick_st, countDown_toNat]
      omega

/-- Beep is a reply of Tick: a Step's reply is empty. -/
theorem transact_step_reply {b : Byte} {s u : State} {r : Reply}
    (h : transact (.step b) s = .next (u, r)) : r = .nothing := by
  cases hstep : stepWith b s with
  | next t =>
    simp only [transact, hstep, Host.Outcome.next.injEq, Prod.mk.injEq] at h
    exact h.2.symm
  | fault f => exact nomatch f
  | refused f => simp only [transact, hstep, reduceCtorEq] at h

/-! The obligations. -/

/-- Settles O50: the key FX0A takes is the least pressed one, which is unique; with none PC goes back by the 2 it
had advanced. -/
theorem keyWaitPollsTheLeastKey : Obligations.KeyWaitPollsTheLeastKey := by
  intro x s
  refine ⟨fun k hk hleast => ?pressed, fun hnone => exec_ldVxK_of_noKey hnone x⟩
  refine ⟨_, exec_ldVxK_of_leastKey hk hleast x, onlyRegsAndPc_writeV_advance s x _, writeV_advance_pc s x _,
    ?index, otherRegsSame_writeV_advance s x _⟩
  rw [readV_writeV_self, keyByte_toNat]

/-- Settles O51: each moves one byte, and the Beep of FX18 is `ticks_beep_iff` at ST = V[X]. -/
theorem timerInstructionsMoveBytes : Obligations.TimerInstructionsMoveBytes := by
  intro x s
  refine ⟨?readDt, ?writeDt, ?writeSt⟩
  case readDt =>
    exact ⟨_, exec_ldVxDt x s, onlyRegsAndPc_writeV_advance s x _, writeV_advance_pc s x _,
      readV_writeV_self _ x _, otherRegsSame_writeV_advance s x _⟩
  case writeDt => exact ⟨_, exec_ldDtVx x s, rfl, fun _ => rfl⟩
  case writeSt =>
    exact ⟨_, exec_ldStVx x s, rfl, fun _ => rfl, fun k m hm => ticks_beep_iff k m _ hm,
      fun _ _ _ hstep => transact_step_reply hstep⟩

end Sys2Proof.Machine

/-! # Host events (60_exceptions.md): the proofs of Tick and of Screen

What Tick does to each counter is `countDown_toNat` and when it beeps is `beeps_iff`, both above; Screen replies
the cells that `pixel` reads. -/

namespace Sys2Proof.Machine

/-! The meanings of the two transactions. -/

theorem transact_tick (s : State) : transact .tick s = .next (tick s, .beep (beeps s)) := rfl

theorem transact_screen (s : State) : transact .screen s = .next (s, .picture (screen s)) := rfl

/-- Tick writes the two counters only. -/
theorem tick_frame (s : State) : tick s = { s with dt := (tick s).dt, st := (tick s).st } := rfl

/-- The picture's row-major order is that of the cells (R217, R218). -/
theorem screen_getElem (s : State) (px py : Nat) (h : px < 64 ∧ py < 32) :
    (screen s)[px + 64 * py] = pixel s px py h := rfl

/-! The obligations. -/

/-- Settles O52: each counter goes down by `countDown`, whose floor is that of `Nat`, and Beep looks at the ST
before the Tick. -/
theorem tickCountsBothTimersDown : Obligations.TickCountsBothTimersDown := by
  intro s
  refine ⟨tick s, beeps s, transact_tick s, tick_frame s, ?dt, ?st, beeps_iff s⟩
  case dt => rw [tick_dt, countDown_toNat]
  case st => rw [tick_st, countDown_toNat]

/-- Settles O58: the picture is `screen s`, whose elements are the pixels by `screen_getElem`. -/
theorem screenIsACopyOfTheCells : Obligations.ScreenIsACopyOfTheCells := by
  intro s
  exact ⟨screen s, transact_screen s, screen_getElem s⟩

end Sys2Proof.Machine

/-! # Encoding (30_encoding.md): the decode tree, the encoder and the opcode table

A word is put together again from its fields, format by format, so each arm of the decode tree undoes one arm
of the encoder. The table is compared with the tree through the arithmetic of its four masks. -/

namespace Sys2Proof

/-! The word of the fields of a word (R91, R92). -/

section fields
variable {w : Word} {d1 d4 : BitVec 4} {nn : Byte}

theorem encodeA_of_d1 (hd1 : fieldD1 w = d1) : encodeA d1 (fieldNNN w) = w := by
  apply BitVec.eq_of_toNat_eq
  rw [← hd1, encodeA_toNat, fieldD1_toNat, fieldNNN_toNat]
  omega

theorem encodeXI_of_d1 (hd1 : fieldD1 w = d1) : encodeXI d1 (fieldX w) (fieldNN w) = w := by
  apply BitVec.eq_of_toNat_eq
  rw [← hd1, encodeXI_toNat, fieldD1_toNat, fieldX_val, fieldNN_toNat]
  omega

theorem encodeXF_of_d1_nn (hd1 : fieldD1 w = d1) (hnn : fieldNN w = nn) : encodeXF d1 (fieldX w) nn = w := by
  rw [← hnn]
  exact encodeXI_of_d1 hd1

theorem encodeXY_of_d1_d4 (hd1 : fieldD1 w = d1) (hd4 : fieldD4 w = d4) :
    encodeXY d1 (fieldX w) (fieldY w) d4 = w := by
  apply BitVec.eq_of_toNat_eq
  rw [← hd1, ← hd4, encodeXY_toNat, fieldD1_toNat, fieldX_val, fieldY_val, fieldD4_toNat]
  omega

@[simp] theorem fieldN_encodeXY (x y : Reg) (n : Fin 16) : fieldN (encodeXY d1 x y (nibble n)) = n := by
  rw [fieldN, fieldD4_encodeXY]
  rfl

end fields

/-! Decoding an encoded instruction. -/

theorem decode_encode (i : Instr) : decode (encode i) = some i := by
  cases i with
  | nop | cls | ret => rfl
  | jp _ | call _ | ldI _ | jpV0 _ => simp [encode, decode]
  | seImm _ _ | sneImm _ _ | ldImm _ _ | addImm _ _ | rnd _ _ => simp [encode, decode]
  | seReg _ _ | sneReg _ _ | drw _ _ _ => simp [encode, decode]
  | ldReg _ _ | orReg _ _ | andReg _ _ | xorReg _ _ | addReg _ _ | subReg _ _ | shrReg _ _ | subnReg _ _
  | shlReg _ _ => simp [encode, decode, decodeGroup8]
  | skp _ | sknp _ => simp [encode, decode, decodeGroupE]
  | ldVxDt _ | ldVxK _ | ldDtVx _ | ldStVx _ | addI _ | ldF _ | ldB _ | storeRegs _ | loadRegs _ =>
    simp [encode, decode, decodeGroupF]

/-! Encoding a decoded word: one lemma per group with a second level (R96), then the tree. -/

section groups
variable {w : Word} {i : Instr}

theorem encode_of_decodeGroup0 (h : decodeGroup0 w = some i) : encode i = w := by
  unfold decodeGroup0 at h
  split_ifs at h with hnop hcls hret <;> cases h
  · exact hnop.symm
  · exact hcls.symm
  · exact hret.symm

theorem encode_of_decodeGroup8 (hd1 : fieldD1 w = 8) (h : decodeGroup8 w = some i) : encode i = w := by
  unfold decodeGroup8 at h
  split at h <;> cases h <;> next hd4 => exact encodeXY_of_d1_d4 hd1 hd4

theorem encode_of_decodeGroupE (hd1 : fieldD1 w = 0xE) (h : decodeGroupE w = some i) : encode i = w := by
  unfold decodeGroupE at h
  split at h <;> cases h <;> next hnn => exact encodeXF_of_d1_nn hd1 hnn

theorem encode_of_decodeGroupF (hd1 : fieldD1 w = 0xF) (h : decodeGroupF w = some i) : encode i = w := by
  unfold decodeGroupF at h
  split at h <;> cases h <;> next hnn => exact encodeXF_of_d1_nn hd1 hnn

theorem encode_of_decode (h : decode w = some i) : encode i = w := by
  unfold decode at h
  split at h
  · exact encode_of_decodeGroup0 h
  · next hd1 => cases h; exact encodeA_of_d1 hd1
  · next hd1 => cases h; exact encodeA_of_d1 hd1
  · next hd1 => cases h; exact encodeXI_of_d1 hd1
  · next hd1 => cases h; exact encodeXI_of_d1 hd1
  · next hd1 =>
    split_ifs at h with hd4
    cases h
    exact encodeXY_of_d1_d4 hd1 hd4
  · next hd1 => cases h; exact encodeXI_of_d1 hd1
  · next hd1 => cases h; exact encodeXI_of_d1 hd1
  · next hd1 => exact encode_of_decodeGroup8 hd1 h
  · next hd1 =>
    split_ifs at h with hd4
    cases h
    exact encodeXY_of_d1_d4 hd1 hd4
  · next hd1 => cases h; exact encodeA_of_d1 hd1
  · next hd1 => cases h; exact encodeA_of_d1 hd1
  · next hd1 => cases h; exact encodeXI_of_d1 hd1
  · next hd1 => cases h; exact encodeXY_of_d1_d4 hd1 rfl
  · next hd1 => exact encode_of_decodeGroupE hd1 h
  · next hd1 => exact encode_of_decodeGroupF hd1 h
  · cases h

end groups

/-! The row of an instruction, and the illegal words (R98). -/

/-- The family `MatchesItsRow` for all instructions at once. -/
theorem matchesItsRow (i : Instr) : Laws.MatchesItsRow.Statement i := by
  cases i with
  | nop => exact Laws.MatchesItsRow.nop
  | cls => exact Laws.MatchesItsRow.cls
  | ret => exact Laws.MatchesItsRow.ret
  | jp nnn => exact Laws.MatchesItsRow.jp nnn
  | call nnn => exact Laws.MatchesItsRow.call nnn
  | seImm x nn => exact Laws.MatchesItsRow.seImm x nn
  | sneImm x nn => exact Laws.MatchesItsRow.sneImm x nn
  | seReg x y => exact Laws.MatchesItsRow.seReg x y
  | sneReg x y => exact Laws.MatchesItsRow.sneReg x y
  | ldImm x nn => exact Laws.MatchesItsRow.ldImm x nn
  | addImm x nn => exact Laws.MatchesItsRow.addImm x nn
  | ldReg x y => exact Laws.MatchesItsRow.ldReg x y
  | orReg x y => exact Laws.MatchesItsRow.orReg x y
  | andReg x y => exact Laws.MatchesItsRow.andReg x y
  | xorReg x y => exact Laws.MatchesItsRow.xorReg x y
  | addReg x y => exact Laws.MatchesItsRow.addReg x y
  | subReg x y => exact Laws.MatchesItsRow.subReg x y
  | shrReg x y => exact Laws.MatchesItsRow.shrReg x y
  | subnReg x y => exact Laws.MatchesItsRow.subnReg x y
  | shlReg x y => exact Laws.MatchesItsRow.shlReg x y
  | ldI nnn => exact Laws.MatchesItsRow.ldI nnn
  | jpV0 nnn => exact Laws.MatchesItsRow.jpV0 nnn
  | rnd x nn => exact Laws.MatchesItsRow.rnd x nn
  | drw x y n => exact Laws.MatchesItsRow.drw x y n
  | skp x => exact Laws.MatchesItsRow.skp x
  | sknp x => exact Laws.MatchesItsRow.sknp x
  | ldVxDt x => exact Laws.MatchesItsRow.ldVxDt x
  | ldVxK x => exact Laws.MatchesItsRow.ldVxK x
  | ldDtVx x => exact Laws.MatchesItsRow.ldDtVx x
  | ldStVx x => exact Laws.MatchesItsRow.ldStVx x
  | addI x => exact Laws.MatchesItsRow.addI x
  | ldF x => exact Laws.MatchesItsRow.ldF x
  | ldB x => exact Laws.MatchesItsRow.ldB x
  | storeRegs x => exact Laws.MatchesItsRow.storeRegs x
  | loadRegs x => exact Laws.MatchesItsRow.loadRegs x

/-! Each second-level group decodes to nothing exactly on its own list. -/

section illegal
variable (w : Word)

theorem decodeGroup0_eq_none : decodeGroup0 w = none ↔ w.toNat ∉ [0x0000, 0x00E0, 0x00EE] := by
  simp only [decodeGroup0, ← BitVec.toNat_inj]
  split_ifs <;> simp_all

theorem decodeGroup8_eq_none :
    decodeGroup8 w = none ↔ w.toNat % 16 ∈ [0x8, 0x9, 0xA, 0xB, 0xC, 0xD, 0xF] := by
  rw [← fieldD4_toNat, decodeGroup8]
  generalize fieldD4 w = d4
  split
  case h_10 =>
    -- The arm for the nibbles that select no operation.
    simp only [true_iff]
    revert d4
    decide
  all_goals simp

theorem decodeGroupE_eq_none : decodeGroupE w = none ↔ w.toNat % 256 ∉ [0x9E, 0xA1] := by
  rw [← fieldNN_toNat, decodeGroupE]
  generalize fieldNN w = nn
  split <;> simp_all [← BitVec.toNat_inj]

theorem decodeGroupF_eq_none :
    decodeGroupF w = none ↔ w.toNat % 256 ∉ [0x07, 0x0A, 0x15, 0x18, 0x1E, 0x29, 0x33, 0x55, 0x65] := by
  rw [← fieldNN_toNat, decodeGroupF]
  generalize fieldNN w = nn
  split <;> simp_all [← BitVec.toNat_inj]

end illegal

/-- Settles O5: the list of each group is that of its second level, or of d4 in groups 5 and 9. -/
theorem illegalWordsAreExactlyTheListedOnes : Obligations.IllegalWordsAreExactlyTheListedOnes := by
  intro w
  have hd4 : fieldD4 w = 0 ↔ w.toNat % 16 = 0 := by rw [← fieldD4_toNat, ← BitVec.toNat_inj]; rfl
  rw [← decodeGroup0_eq_none, ← decodeGroup8_eq_none, ← decodeGroupE_eq_none, ← decodeGroupF_eq_none, ne_eq,
    ← hd4, ← fieldD1_toNat, decode]
  split
  case h_17 =>
    -- A nibble has no value beside the 16 of the other arms.
    exfalso
    generalize fieldD1 w = d1 at *
    revert d1
    decide
  all_goals next hd1 => simp [hd1]

/-! The tree and the table (R97, R114). -/

theorem selects_iff (r : OpcodeRow) (w : Word) : r.selects w = true ↔ w &&& r.mask = r.bits := beq_iff_eq

/-- No row selects an illegal word: the four masks as arithmetic against the list of R98. -/
theorem not_selects_of_decode_eq_none {w : Word} (h : decode w = none) :
    ∀ r ∈ opcodeTable, ¬r.selects w = true := by
  rw [illegalWordsAreExactlyTheListedOnes] at h
  simp only [opcodeTable, opcodeRowsControl, opcodeRowsAlu, opcodeRowsRest, List.cons_append, List.nil_append,
    List.forall_mem_cons, selects_F000, selects_F00F, selects_F0FF, selects_FFFF, ← BitVec.toNat_inj]
  simp only [BitVec.reduceToNat, List.mem_cons, List.not_mem_nil, or_false, false_imp_iff, implies_true,
    and_true] at h ⊢
  omega

theorem row_selects_of_decode {w : Word} {i : Instr} (h : decode w = some i) :
    ∃ r ∈ opcodeTable, r.mnemonic = i.mnemonic ∧ w &&& r.mask = r.bits := by
  obtain ⟨r, hr, hname, hselects⟩ := matchesItsRow i
  rw [encode_of_decode h, selects_iff] at hselects
  exact ⟨r, hr, hname, hselects⟩

theorem decode_eq_none_iff_no_row (w : Word) :
    decode w = none ↔ ∀ r ∈ opcodeTable, w &&& r.mask ≠ r.bits := by
  refine ⟨fun h r hr => mt (selects_iff r w).2 (not_selects_of_decode_eq_none h r hr), fun hnone => ?_⟩
  rw [Option.eq_none_iff_forall_ne_some]
  intro i h
  obtain ⟨r, hr, -, hselects⟩ := row_selects_of_decode h
  exact hnone r hr hselects

/-- Two rows whose fixed bits agree wherever both fix a bit are the same row. -/
theorem eq_of_rows_agree : ∀ r ∈ opcodeTable, ∀ q ∈ opcodeTable,
    r.bits &&& q.mask = q.bits &&& r.mask → r = q := by
  decide

/-! The obligations. -/

/-- Settles O1: `decode_encode`, format by format. -/
theorem decodeOfEncodeIsTheInstruction : Obligations.DecodeOfEncodeIsTheInstruction :=
  decode_encode

/-- Settles O2: every arm of the tree keeps all the fields of the word. -/
theorem encodeOfDecodedIsTheWord : Obligations.EncodeOfDecodedIsTheWord :=
  fun _ _ => encode_of_decode

/-- Settles O3: an illegal word is one no row selects, and a decoded word is the word of its instruction, which
`matchesItsRow` is about. -/
theorem decodeTreeAgreesWithTheOpcodeTable : Obligations.DecodeTreeAgreesWithTheOpcodeTable :=
  fun w => ⟨decode_eq_none_iff_no_row w, fun _ => row_selects_of_decode⟩

/-- Settles O4: rows that select one word agree with it, and so with each other, on the bits both fix. -/
theorem atMostOneRowSelectsAWord : Obligations.AtMostOneRowSelectsAWord := by
  intro w r hr q hq hrw hqw
  apply eq_of_rows_agree r hr q hq
  rw [← hrw, ← hqw, BitVec.and_assoc, BitVec.and_assoc, BitVec.and_comm r.mask]

/-- Settles O6: the word of each format is its nibbles' weighted sum. -/
theorem wordsFollowThePatterns : Obligations.WordsFollowThePatterns := by
  intro x y n nn nnn
  simp only [encode, encodeA_toNat, encodeXI_toNat, encodeXF_toNat, encodeXY_toNat, nibble_toNat,
    BitVec.reduceToNat, true_and]
  and_intros <;> omega

/-- Settles O7: ten closed words. -/
theorem writtenOutWordsDecode : Obligations.WrittenOutWordsDecode := by
  unfold Obligations.WrittenOutWordsDecode
  decide

end Sys2Proof

/-! # What an instruction can do: it commits, or it takes the fault the table lists

`commit i s` is the state instruction `i` answers where it does not fault, each arm one update of the fields it
writes; `exec_cases` says once that `exec` answers that state or takes the listed fault. What the fault registers
and ST have no influence on, who may write what, and the machine's invariant are then facts about `commit` and
`State.takeFault`, and no later proof of such a fact looks at `exec` again. -/

namespace Sys2Proof.Machine

/-- PC after a skip (42_skips.md R140). -/
def State.skipPc (s : State) (c : Bool) : Word := if c then s.pc + 4 else s.pc + 2

/-- The state an instruction answers where it does not fault. -/
def commit : Instr → State → State
  | .nop, s => s.advance
  | .cls, s => s.advance.setDisp (Vector.replicate 2048 false)
  | .ret, s => (s.advance.setStack s.stack ⟨s.sp.val - 1, by omega⟩).setPc (s.stack[s.sp.val - 1]'(by omega))
  | .jp nnn, s => s.advance.setPc (addrOfImm nnn)
  | .call nnn, s =>
    (s.advance.setStack (s.stack.setIfInBounds s.sp.val (s.pc + 2)) (s.sp + 1)).setPc (addrOfImm nnn)
  | .seImm x nn, s => s.setPc (s.skipPc (decide (s.readV x = nn)))
  | .sneImm x nn, s => s.setPc (s.skipPc (decide (s.readV x ≠ nn)))
  | .seReg x y, s => s.setPc (s.skipPc (decide (s.readV x = s.readV y)))
  | .sneReg x y, s => s.setPc (s.skipPc (decide (s.readV x ≠ s.readV y)))
  | .ldImm x nn, s => s.advance.writeV x nn
  | .addImm x nn, s => s.advance.writeV x (BitVec.ofNat 8 ((s.readV x).toNat + nn.toNat))
  | .ldReg x y, s => s.advance.writeV x (s.readV y)
  | .orReg x y, s => s.advance.writeV x (s.readV x ||| s.readV y)
  | .andReg x y, s => s.advance.writeV x (s.readV x &&& s.readV y)
  | .xorReg x y, s => s.advance.writeV x (s.readV x ^^^ s.readV y)
  | .addReg x y, s =>
    s.advance.writeFlagAndResult x (carryFlag ((s.readV x).toNat + (s.readV y).toNat))
      (BitVec.ofNat 8 ((s.readV x).toNat + (s.readV y).toNat))
  | .subReg x y, s =>
    s.advance.writeFlagAndResult x (noBorrowFlag ((s.readV x).toNat - (s.readV y).toNat))
      (BitVec.ofInt 8 ((s.readV x).toNat - (s.readV y).toNat))
  | .shrReg x y, s => s.advance.writeFlagAndResult x (lsbFlag (s.readV y)) (s.readV y >>> 1)
  | .subnReg x y, s =>
    s.advance.writeFlagAndResult x (noBorrowFlag ((s.readV y).toNat - (s.readV x).toNat))
      (BitVec.ofInt 8 ((s.readV y).toNat - (s.readV x).toNat))
  | .shlReg x y, s => s.advance.writeFlagAndResult x (msbFlag (s.readV y)) (s.readV y <<< 1)
  | .ldI nnn, s => s.advance.setI (addrOfImm nnn)
  | .jpV0 nnn, s => s.advance.setPc (offsetTarget (s.readV 0) nnn)
  | .rnd x nn, s => s.advance.countRnd.writeV x (Config.rnd s.rndCount &&& nn)
  | .drw x y n, s =>
    (s.advance.setDisp (drawCells s.disp (drwCells x y n s)).1).writeV vf
      (collisionFlag (drawCells s.disp (drwCells x y n s)).2)
  | .skp x, s => s.setPc (s.skipPc ((s.keyFlag (s.readV x)).getD false))
  | .sknp x, s => s.setPc (s.skipPc (!(s.keyFlag (s.readV x)).getD false))
  | .ldVxDt x, s => s.advance.writeV x s.dt
  | .ldVxK x, s =>
    (s.setV (s.firstKey.elim s.v fun k => s.v.set x (BitVec.ofNat 8 k.val))).setPc
      (s.firstKey.elim s.pc fun _ => s.pc + 2)
  | .ldDtVx x, s => s.advance.setDt (s.readV x)
  | .ldStVx x, s => s.advance.setSt (s.readV x)
  | .addI x, s => s.advance.setI (indexSum s.i (s.readV x))
  | .ldF x, s => s.advance.setI (glyphAddress (s.readV x))
  | .ldB x, s => s.advance.setMem (s.mem.writeBytes s.i.toNat (bcdBytes (s.readV x)))
  | .storeRegs x, s => (s.advance.setMem (s.mem.writeBytes s.i.toNat (s.regBlock x))).setI (indexPast s.i x)
  | .loadRegs x, s => (s.advance.setV (s.loadedRegs s.i.toNat x)).setI (indexPast s.i x)

/-- `i` commits, and the table lists no fault; or it takes the listed fault. -/
def CommitsOrFaults (i : Instr) (s : State) : Prop :=
  (listedFault i s = none ∧ exec i s = .next (commit i s)) ∨
  ∃ (c : Cause) (u : Word), c ≠ .none ∧ listedFault i s = some (c, u.toNat) ∧
    exec i s = .next (s.takeFault c (encode i) u)

/-! The instructions whose commit is not their meaning word for word. -/

section instructions
variable (s : State)

theorem skipIf_advance (c : Bool) : s.advance.skipIf c = s.setPc (s.skipPc c) := by
  cases c with
  | false => rfl
  | true => exact congrArg s.setPc (BitVec.add_assoc s.pc 2 2)

/-- FX0A without a key goes back by the 2 it had advanced. -/
theorem exec_ldVxK_commit (x : Reg) : exec (.ldVxK x) s = .next (commit (.ldVxK x) s) := by
  rw [exec_ldVxK, execLdVxK, commit]
  cases s.firstKey with
  | none => simp [State.setPc, State.advance, State.setV]
  | some k => rfl

/-- The argument for the four instructions that check an access at I (20_memory.md R68). -/
theorem commitsOrFaults_of_bounds {i : Instr} {inBounds : Prop} (hin : inBounds → listedFault i s = none)
    (hout : ¬inBounds → listedFault i s = some (.outOfBounds, max s.i.toNat 0x1000))
    (hexec : (inBounds ∧ exec i s = .next (commit i s)) ∨
      (¬inBounds ∧ exec i s = .next (s.takeFault .outOfBounds (encode i) (outOfRangeValue s.i)))) :
    CommitsOrFaults i s := by
  rcases hexec with ⟨h, hcommit⟩ | ⟨h, hfault⟩
  · exact .inl ⟨hin h, hcommit⟩
  · exact .inr ⟨.outOfBounds, outOfRangeValue s.i, by decide, by rw [outOfRangeValue_toNat, hout h], hfault⟩

theorem commitsOrFaults_ldB (x : Reg) : CommitsOrFaults (.ldB x) s :=
  commitsOrFaults_of_bounds s (fun _ => if_neg (by omega)) (fun _ => if_pos (by omega)) (execLdB_cases x s)

theorem commitsOrFaults_storeRegs (x : Reg) : CommitsOrFaults (.storeRegs x) s :=
  commitsOrFaults_of_bounds s (fun _ => if_neg (by omega)) (fun _ => if_pos (by omega)) (execStoreRegs_cases x s)

theorem commitsOrFaults_loadRegs (x : Reg) : CommitsOrFaults (.loadRegs x) s :=
  commitsOrFaults_of_bounds s (fun _ => if_neg (by omega)) (fun _ => if_pos (by omega)) (execLoadRegs_cases x s)

theorem commitsOrFaults_drw (x y : Reg) (n : Fin 16) : CommitsOrFaults (.drw x y n) s :=
  commitsOrFaults_of_bounds s (fun _ => if_neg (by omega)) (fun _ => if_pos (by omega)) (execDrw_cases x y n s)

theorem commitsOrFaults_call (nnn : Addr12) : CommitsOrFaults (.call nnn) s := by
  rcases execCall_cases nnn s with ⟨hroom, hexec⟩ | ⟨hfull, hexec⟩
  · refine .inl ⟨if_neg (by omega), hexec.trans ?_⟩
    have hsp : s.sp + 1 = ⟨s.sp.val + 1, by omega⟩ := Fin.ext (Fin.val_add_one_of_lt hroom)
    have hstack : s.stack.setIfInBounds s.sp.val (s.pc + 2) = s.stack.set s.sp.val (s.pc + 2) := by
      ext k hk
      rw [Vector.getElem_setIfInBounds, Vector.getElem_set]
    rw [commit, hsp, hstack]
  · exact .inr ⟨.stackOverflow, 16, by decide, if_pos hfull, hexec⟩

theorem commitsOrFaults_ret : CommitsOrFaults .ret s := by
  rcases execRet_cases s with ⟨hany, hexec⟩ | ⟨hempty, hexec⟩
  · exact .inl ⟨if_neg hany, hexec⟩
  · exact .inr ⟨.stackUnderflow, 0, by decide, if_pos hempty, hexec⟩

theorem commitsOrFaults_skp (x : Reg) : CommitsOrFaults (.skp x) s := by
  rcases execSkp_cases x s with ⟨hkey, hexec⟩ | ⟨hnone, hexec⟩
  · refine .inl ⟨if_neg (by omega), hexec.trans ?_⟩
    rw [skipIf_advance, commit, keyFlag_of_lt hkey, Option.getD_some]
  · exact .inr ⟨_, _, by decide, by rw [wordOfByte_toNat]; exact if_pos (by omega), hexec⟩

theorem commitsOrFaults_sknp (x : Reg) : CommitsOrFaults (.sknp x) s := by
  rcases execSknp_cases x s with ⟨hkey, hexec⟩ | ⟨hnone, hexec⟩
  · refine .inl ⟨if_neg (by omega), hexec.trans ?_⟩
    rw [skipIf_advance, commit, keyFlag_of_lt hkey, Option.getD_some]
  · exact .inr ⟨_, _, by decide, by rw [wordOfByte_toNat]; exact if_pos (by omega), hexec⟩

end instructions

/-- What an instruction can do (60_exceptions.md R200). -/
theorem exec_cases (i : Instr) (s : State) : CommitsOrFaults i s := by
  cases i with
  | ldB x => exact commitsOrFaults_ldB s x
  | storeRegs x => exact commitsOrFaults_storeRegs s x
  | loadRegs x => exact commitsOrFaults_loadRegs s x
  | drw x y n => exact commitsOrFaults_drw s x y n
  | call nnn => exact commitsOrFaults_call s nnn
  | ret => exact commitsOrFaults_ret s
  | skp x => exact commitsOrFaults_skp s x
  | sknp x => exact commitsOrFaults_sknp s x
  | seImm _ _ | sneImm _ _ | seReg _ _ | sneReg _ _ => exact .inl ⟨rfl, congrArg _ (skipIf_advance s _)⟩
  | ldVxK x => exact .inl ⟨rfl, exec_ldVxK_commit s x⟩
  | _ => exact .inl ⟨rfl, rfl⟩

theorem exec_of_not_listed {i : Instr} {s : State} (h : listedFault i s = none) :
    exec i s = .next (commit i s) := by
  rcases exec_cases i s with ⟨-, hexec⟩ | ⟨c, u, -, hlisted, -⟩
  · exact hexec
  · rw [h] at hlisted
    cases hlisted

theorem exec_of_listed {i : Instr} {s : State} {c : Cause} {v : Nat} (h : listedFault i s = some (c, v)) :
    ∃ u : Word, u.toNat = v ∧ exec i s = .next (s.takeFault c (encode i) u) := by
  rcases exec_cases i s with ⟨hlisted, -⟩ | ⟨c', u, -, hlisted, hexec⟩
  · rw [h] at hlisted
    cases hlisted
  · rw [h, Option.some_inj, Prod.mk.injEq] at hlisted
    obtain ⟨rfl, rfl⟩ := hlisted
    exact ⟨u, rfl, hexec⟩

/-! What is invisible to an instruction: the fault registers and ST. -/

/-- The state with other contents of HALT, CAUSE and the record. -/
def State.withRecord (s : State) (h : Bool) (c : Cause) (p w v : Word) : State :=
  { s with halt := h, cause := c, fpc := p, fword := w, fval := v }

section invisible
variable (i : Instr) (s : State) (h : Bool) (c : Cause) (p w v : Word) (b : Byte)

theorem listedFault_withRecord : listedFault i (s.withRecord h c p w v) = listedFault i s := by
  cases i <;> rfl

theorem commit_withRecord : commit i (s.withRecord h c p w v) = (commit i s).withRecord h c p w v := by
  cases i <;> rfl

theorem listedFault_setSt : listedFault i (s.setSt b) = listedFault i s := by
  cases i <;> rfl

/-- FX18 writes ST; every other instruction leaves it. -/
theorem commit_setSt :
    commit i (s.setSt b) = (commit i s).setSt (if ∃ x, i = .ldStVx x then (commit i s).st else b) := by
  cases i with
  | ldStVx x => rw [if_pos ⟨x, rfl⟩]; rfl
  | _ => rw [if_neg (by simp)]; rfl

end invisible

/-! Who writes what (10_state.md R37). -/

section writers
variable (i : Instr) (s : State)

/-- The record put in is the one there was, so it stands after the commit. -/
theorem commit_eq_withRecord : commit i s = (commit i s).withRecord s.halt s.cause s.fpc s.fword s.fval :=
  commit_withRecord i s s.halt s.cause s.fpc s.fword s.fval

@[simp] theorem commit_halt : (commit i s).halt = s.halt :=
  (congrArg State.halt (commit_eq_withRecord i s)).trans rfl
@[simp] theorem commit_cause : (commit i s).cause = s.cause :=
  (congrArg State.cause (commit_eq_withRecord i s)).trans rfl
@[simp] theorem commit_fpc : (commit i s).fpc = s.fpc :=
  (congrArg State.fpc (commit_eq_withRecord i s)).trans rfl
@[simp] theorem commit_fword : (commit i s).fword = s.fword :=
  (congrArg State.fword (commit_eq_withRecord i s)).trans rfl
@[simp] theorem commit_fval : (commit i s).fval = s.fval :=
  (congrArg State.fval (commit_eq_withRecord i s)).trans rfl

@[simp] theorem commit_key : (commit i s).key = s.key := by
  cases i with
  | loadRegs x => simp [commit]
  | _ => rfl

theorem commit_readV (q : Reg) : (commit i s).readV q = s.readV q ∨
    namesAsDestination i q = true ∨ (q = 15 ∧ writesFlag i = true) := by
  cases i with
  | ldImm x _ | addImm x _ | ldReg x _ | orReg x _ | andReg x _ | xorReg x _ | rnd x _ | ldVxDt x =>
    by_cases hq : q = x
    · exact .inr (.inl (beq_iff_eq.2 hq))
    · exact .inl (otherRegsSame_writeV_advance s x _ q hq)
  | ldVxK x =>
    by_cases hq : q = x
    · exact .inr (.inl (beq_iff_eq.2 hq))
    · left
      show (s.firstKey.elim s.v fun k => s.v.set x _)[q] = s.v[q]
      cases s.firstKey with
      | none => rfl
      | some k => exact otherRegsSame_writeV_advance s x _ q hq
  | addReg x _ | subReg x _ | subnReg x _ | shrReg x _ | shlReg x _ =>
    by_cases hq : q = x
    · exact .inr (.inl (beq_iff_eq.2 hq))
    by_cases hvf : q = vf
    · exact .inr (.inr ⟨hvf, rfl⟩)
    · left
      rw [commit, readV_writeFlagAndResult, if_neg (Ne.symm hq), if_neg (Ne.symm hvf), readV_advance]
  | drw x y n =>
    by_cases hvf : q = vf
    · exact .inr (.inr ⟨hvf, rfl⟩)
    · left
      rw [commit, readV_writeV, if_neg (Ne.symm hvf), readV_setDisp, readV_advance]
  | loadRegs x =>
    by_cases hq : q ≤ x
    · exact .inr (.inl (decide_eq_true hq))
    · left
      rw [commit, readV_setI, readV_setV, loadedRegs_getElem, if_neg hq]
  | _ => exact .inl rfl

theorem commit_i : (commit i s).i = s.i ∨
    ∃ x nnn, i = .ldI nnn ∨ i = .addI x ∨ i = .ldF x ∨ i = .storeRegs x ∨ i = .loadRegs x := by
  cases i with
  | ldI nnn => exact .inr ⟨0, nnn, by simp⟩
  | addI x | ldF x | storeRegs x | loadRegs x => exact .inr ⟨x, 0, by simp⟩
  | _ => exact .inl rfl

theorem commit_stack : (commit i s).stack = s.stack ∨ ∃ nnn, i = .call nnn := by
  cases i with
  | call nnn => exact .inr ⟨nnn, rfl⟩
  | loadRegs x => simp [commit]
  | _ => exact .inl rfl

theorem commit_sp (h : listedFault i s = none) : (commit i s).sp = s.sp ∨
    (∃ nnn, i = .call nnn ∧ (commit i s).sp.val = s.sp.val + 1) ∨
    (i = .ret ∧ (commit i s).sp.val + 1 = s.sp.val) := by
  cases i with
  | call nnn =>
    have hroom : s.sp.val ≠ 16 := by simpa [listedFault] using h
    have hsp : s.sp < Fin.last 16 := by rw [Fin.lt_def, Fin.val_last]; omega
    exact .inr (.inl ⟨nnn, rfl, Fin.val_add_one_of_lt hsp⟩)
  | ret =>
    have hany : s.sp.val ≠ 0 := by simpa [listedFault] using h
    exact .inr (.inr ⟨rfl, Nat.sub_add_cancel (Nat.pos_of_ne_zero hany)⟩)
  | loadRegs x => simp [commit]
  | _ => exact .inl rfl

theorem commit_mem : (commit i s).mem = s.mem ∨ ∃ x, i = .ldB x ∨ i = .storeRegs x := by
  cases i with
  | ldB x => exact .inr ⟨x, .inl rfl⟩
  | storeRegs x => exact .inr ⟨x, .inr rfl⟩
  | loadRegs x => simp [commit]
  | _ => exact .inl rfl

theorem commit_disp : (commit i s).disp = s.disp ∨ i = .cls ∨ ∃ x y n, i = .drw x y n := by
  cases i with
  | cls => exact .inr (.inl rfl)
  | drw x y n => exact .inr (.inr ⟨x, y, n, rfl⟩)
  | loadRegs x => simp [commit]
  | _ => exact .inl rfl

theorem commit_dt : (commit i s).dt = s.dt ∨ ∃ x, i = .ldDtVx x := by
  cases i with
  | ldDtVx x => exact .inr ⟨x, rfl⟩
  | loadRegs x => simp [commit]
  | _ => exact .inl rfl

theorem commit_st : (commit i s).st = s.st ∨ ∃ x, i = .ldStVx x := by
  cases i with
  | ldStVx x => exact .inr ⟨x, rfl⟩
  | loadRegs x => simp [commit]
  | _ => exact .inl rfl

theorem commit_rndCount : (commit i s).rndCount = s.rndCount ∨ ∃ x nn, i = .rnd x nn := by
  cases i with
  | rnd x nn => exact .inr ⟨x, nn, rfl⟩
  | loadRegs x => simp [commit]
  | _ => exact .inl rfl

end writers

/-! The obligations. -/

/-- Settles O12: `exec_cases`, with the fields `State.takeFault` writes and those `commit` leaves. -/
theorem instructionsFaultExactlyWhereListed : Obligations.InstructionsFaultExactlyWhereListed := by
  intro i s
  cases hlisted : listedFault i s with
  | none =>
    exact ⟨_, exec_of_not_listed hlisted, commit_halt i s, commit_cause i s, commit_fpc i s, commit_fword i s,
      commit_fval i s⟩
  | some fault =>
    obtain ⟨u, hu, hexec⟩ := exec_of_listed hlisted
    exact ⟨_, hexec, rfl, rfl, hu⟩

/-- Settles O18: a fault writes the record alone, and a commit has one lemma per piece of state. -/
theorem eachPieceOfStateHasItsWriters : Obligations.EachPieceOfStateHasItsWriters := by
  intro i s t hexec
  rcases exec_cases i s with ⟨hlisted, hcommit⟩ | ⟨c, u, -, hlisted, hfault⟩
  · cases hexec.symm.trans hcommit
    refine ⟨fun q => (commit_readV i s q).resolve_left, (commit_i i s).resolve_left, fun _ => hlisted,
      (commit_stack i s).resolve_left, (commit_sp i s hlisted).resolve_left, (commit_mem i s).resolve_left,
      (commit_disp i s).resolve_left, commit_key i s, (commit_dt i s).resolve_left,
      (commit_st i s).resolve_left, fun hrecord => ?_, (commit_rndCount i s).resolve_left⟩
    simp at hrecord
  · cases hexec.symm.trans hfault
    simp [hlisted]

/-- Settles O19: the clause of O18 about registers, at VF. -/
theorem vfChangesOnlyAsFlagOrDestination : Obligations.VfChangesOnlyAsFlagOrDestination := by
  intro i s t hexec hvf
  obtain ⟨hregs, -⟩ := eachPieceOfStateHasItsWriters i s t hexec
  exact (hregs 15 hvf).symm.imp_left And.right

/-- Settles O20: ST is neither in the table of faults nor read by a commit. -/
theorem soundTimerIsNeverRead : Obligations.SoundTimerIsNeverRead := by
  intro i s t b hexec
  show exec i (s.setSt b) = .next (t.setSt _)
  rcases exec_cases i s with ⟨hlisted, hcommit⟩ | ⟨c, u, -, hlisted, hfault⟩
  · cases hexec.symm.trans hcommit
    rw [exec_of_not_listed ((listedFault_setSt i s b).trans hlisted), commit_setSt]
  · cases hexec.symm.trans hfault
    have hother : ¬∃ x, i = .ldStVx x := by
      rintro ⟨x, rfl⟩
      cases hlisted
    obtain ⟨u', hu', hfault'⟩ := exec_of_listed ((listedFault_setSt i s b).trans hlisted)
    rw [hfault', BitVec.eq_of_toNat_eq hu', if_neg hother]
    rfl

/-- Settles O21: neither the table of faults nor a commit reads the fault registers. -/
theorem faultRecordIsInvisibleToInstructions : Obligations.FaultRecordIsInvisibleToInstructions := by
  intro i s t h c p w v hlisted hexec
  cases hexec.symm.trans (exec_of_not_listed hlisted)
  exact (exec_of_not_listed ((listedFault_withRecord i s h c p w v).trans hlisted)).trans
    (congrArg _ (commit_withRecord i s h c p w v))

end Sys2Proof.Machine

/-! # The machine's invariant (10_state.md R24, R36): kept by every step and every transaction

Each field of `State.Inv` has a lemma about `commit`; a fault changes none of the bounded fields. -/

namespace Sys2Proof.Machine

/-! The bounds on what an instruction leaves behind, field by field. -/

section bounds
variable {s : State} {i : Instr}

theorem pc_add_two_le (hpc : s.pc.toNat ≤ 0xFFE) : (s.pc + 2).toNat ≤ 0x1000 := by
  bv_omega

theorem skipPc_le (hpc : s.pc.toNat ≤ 0xFFE) (c : Bool) : (s.skipPc c).toNat ≤ 0x1002 := by
  have htwo := pc_add_two_le hpc
  have hfour : (s.pc + 4).toNat ≤ 0x1002 := by bv_omega
  cases c with
  | false => exact htwo.trans (by decide)
  | true => exact hfour

theorem addrOfImm_le (nnn : Addr12) : (addrOfImm nnn).toNat ≤ 0xFFF := by
  rw [addrOfImm_toNat]
  exact Nat.le_of_lt_succ nnn.isLt

theorem commit_pc_le (hpc : s.pc.toNat ≤ 0xFFE) (hstack : ∀ k : Fin 16, s.stack[k].toNat ≤ 0x1000) :
    (commit i s).pc.toNat ≤ 0x10FE := by
  cases i with
  | jp nnn | call nnn => exact (addrOfImm_le nnn).trans (by decide)
  | jpV0 nnn => exact offsetTarget_toNat_le _ nnn
  | ret => exact (hstack ⟨s.sp.val - 1, by omega⟩).trans (by decide)
  | seImm _ _ | sneImm _ _ | seReg _ _ | sneReg _ _ | skp _ | sknp _ => exact (skipPc_le hpc _).trans (by decide)
  | ldVxK x =>
    rw [commit, setPc_pc]
    cases s.firstKey with
    | none => exact hpc.trans (by decide)
    | some k => exact (pc_add_two_le hpc).trans (by decide)
  | _ => exact (pc_add_two_le hpc).trans (by decide)

theorem listedFault_storeRegs_eq_none {x : Reg} (h : listedFault (.storeRegs x) s = none) :
    s.i.toNat + blockLen x ≤ 4096 := by
  have hin : s.i.toNat + x.val ≤ 0xFFF := by simpa [listedFault] using h
  exact Nat.succ_le_succ hin

theorem listedFault_loadRegs_eq_none {x : Reg} (h : listedFault (.loadRegs x) s = none) :
    s.i.toNat + blockLen x ≤ 4096 := by
  have hin : s.i.toNat + x.val ≤ 0xFFF := by simpa [listedFault] using h
  exact Nat.succ_le_succ hin

theorem listedFault_ldB_eq_none {x : Reg} (h : listedFault (.ldB x) s = none) : s.i.toNat + 3 ≤ 4096 := by
  have hin : s.i.toNat + 2 ≤ 0xFFF := by simpa [listedFault] using h
  omega

theorem commit_i_le (hi : s.i.toNat ≤ 0x7FFF) (hlisted : listedFault i s = none) :
    (commit i s).i.toNat ≤ 0x7FFF := by
  cases i with
  | ldI nnn => exact (addrOfImm_le nnn).trans (by decide)
  | addI x =>
    rw [commit, setI_i, indexSum_toNat]
    omega
  | ldF x =>
    have hbyte := (s.readV x).isLt
    rw [commit, setI_i, glyphAddress_toNat]
    omega
  | storeRegs x =>
    have hin := listedFault_storeRegs_eq_none hlisted
    rw [commit, setI_i, indexPast_toNat hin]
    exact hin.trans (by decide)
  | loadRegs x =>
    have hin := listedFault_loadRegs_eq_none hlisted
    rw [commit, setI_i, indexPast_toNat hin]
    exact hin.trans (by decide)
  | _ => exact hi

theorem commit_mem_wf (hmem : s.mem.wf = true) (hlisted : listedFault i s = none) :
    (commit i s).mem.wf = true := by
  rcases commit_mem i s with hsame | ⟨x, rfl | rfl⟩
  · rw [hsame]
    exact hmem
  · exact wf_writeBytes hmem (listedFault_ldB_eq_none hlisted)
  · exact wf_writeBytes hmem (by rw [regBlock_length]; exact listedFault_storeRegs_eq_none hlisted)

theorem commit_stack_le (hpc : s.pc.toNat ≤ 0xFFE) (hstack : ∀ k : Fin 16, s.stack[k].toNat ≤ 0x1000)
    (k : Fin 16) : (commit i s).stack[k].toNat ≤ 0x1000 := by
  rcases commit_stack i s with hsame | ⟨nnn, rfl⟩
  · rw [hsame]
    exact hstack k
  · rw [commit, setPc_stack, setStack_stack, Fin.getElem_fin, Vector.getElem_setIfInBounds]
    split
    · exact pc_add_two_le hpc
    · exact hstack k

end bounds

/-! The invariant after a fault, after a commit, and after a draw of the host's byte. -/

section inv
variable {s : State} (hs : s.Inv)
include hs

theorem inv_takeFault {c : Cause} (hc : c ≠ .none) (w u : Word) : (s.takeFault c w u).Inv where
  memory := hs.memory
  pcBound := hs.pcBound
  indexBound := hs.indexBound
  stackBound := hs.stackBound
  running hrun := by cases hrun
  halted _ := ⟨hc, rfl⟩

theorem inv_commit (hrun : s.halt = false) (hpc : s.pc.toNat ≤ 0xFFE) {i : Instr}
    (hlisted : listedFault i s = none) : (commit i s).Inv where
  memory := commit_mem_wf hs.memory hlisted
  pcBound := commit_pc_le hpc hs.stackBound
  indexBound := commit_i_le hs.indexBound hlisted
  stackBound := commit_stack_le hpc hs.stackBound
  running _ := by simpa using hs.running hrun
  halted hhalt := by simp [hrun] at hhalt

theorem inv_rnd (hrun : s.halt = false) (hpc : s.pc.toNat ≤ 0xFFE) (x : Reg) (b : Byte) :
    (s.advance.countRnd.writeV x b).Inv where
  memory := hs.memory
  pcBound := (pc_add_two_le hpc).trans (by decide)
  indexBound := hs.indexBound
  stackBound := hs.stackBound
  running _ := hs.running hrun
  halted hhalt := by simp [hrun] at hhalt

theorem exec_keeps_inv (hrun : s.halt = false) (hpc : s.pc.toNat ≤ 0xFFE) (i : Instr) :
    ∃ t, exec i s = .next t ∧ t.Inv := by
  rcases exec_cases i s with ⟨hlisted, hcommit⟩ | ⟨c, u, hc, -, hfault⟩
  · exact ⟨_, hcommit, inv_commit hs hrun hpc hlisted⟩
  · exact ⟨_, hfault, inv_takeFault hs hc _ u⟩

theorem step_keeps_inv : ∃ t, step s = .next t ∧ t.Inv := by
  rcases step_cases s with ⟨-, hstep⟩ | ⟨-, -, hstep⟩ | ⟨-, -, -, hstep⟩ | ⟨i, hrun, hpc, -, hstep⟩
  · exact ⟨s, hstep, hs⟩
  · exact ⟨_, hstep, inv_takeFault hs (by decide) _ _⟩
  · exact ⟨_, hstep, inv_takeFault hs (by decide) _ _⟩
  · rw [hstep]
    exact exec_keeps_inv hs hrun hpc i

end inv

/-! A Step with the host's byte (43_load_alu.md R163). -/

theorem stepWith_rnd {s : State} {x : Reg} {nn : Byte} (b : Byte) (hrun : s.halt = false)
    (hpc : s.pc.toNat ≤ 0xFFE) (hd : decode (s.mem.readWord s.pc.toNat) = some (.rnd x nn)) :
    stepWith b s = .next (s.advance.countRnd.writeV x (b &&& nn)) := by
  simp only [stepWith, hrun, fetch_eq_some hpc, Option.bind_some, hd]
  rfl

/-- It draws the byte where the word at PC is a CXNN's, and is the model's own step otherwise. -/
theorem stepWith_cases (b : Byte) (s : State) :
    (∃ x nn, s.halt = false ∧ s.pc.toNat ≤ 0xFFE ∧ decode (s.mem.readWord s.pc.toNat) = some (.rnd x nn)) ∨
    stepWith b s = step s := by
  unfold stepWith
  split
  · next hhalt => exact .inr (step_halted hhalt).symm
  · next hrun =>
    split
    · next x nn hfetch =>
      by_cases hpc : s.pc.toNat ≤ 0xFFE
      · rw [fetch_eq_some hpc, Option.bind_some] at hfetch
        exact .inl ⟨x, nn, Bool.eq_false_iff.2 hrun, hpc, hfetch⟩
      · rw [fetch_eq_none hpc] at hfetch
        cases hfetch
    · exact .inr rfl

theorem transact_step {b : Byte} {s t : State} (h : stepWith b s = .next t) :
    transact (.step b) s = .next (t, .nothing) := by
  simp only [transact, h]

/-! The two transactions that may be refused (60_exceptions.md R215, 70_reset_and_hazards.md R244). -/

theorem transact_load_accepted {bytes : List Byte} (h : bytes.length ≤ 3584) (s : State) :
    transact (.load bytes) s = .next (s.setMem (s.mem.writeBytes 0x200 bytes), .accepted) := by
  have hwf : programWellFormed bytes = true := decide_eq_true h
  rw [transact, load, if_pos hwf, offer]

theorem transact_load_refused {bytes : List Byte} (h : 3584 < bytes.length) (s : State) :
    transact (.load bytes) s = .next (s, .refused) := by
  have hwf : ¬programWellFormed bytes = true := by
    rw [programWellFormed, decide_eq_true_eq]
    exact Nat.not_le.2 h
  rw [transact, load, if_neg hwf, offer]

theorem transact_keySet_accepted {index : Nat} (h : index < 16) (pressed : Bool) (s : State) :
    transact (.keySet index pressed) s = .next (s.setKey (s.key.setIfInBounds index pressed), .accepted) := by
  have hwf : keyIndexWellFormed index = true := decide_eq_true h
  rw [transact, keySet, if_pos hwf, offer]

theorem transact_keySet_refused {index : Nat} (h : 16 ≤ index) (pressed : Bool) (s : State) :
    transact (.keySet index pressed) s = .next (s, .refused) := by
  have hwf : ¬keyIndexWellFormed index = true := by
    rw [keyIndexWellFormed, decide_eq_true_eq]
    exact Nat.not_lt.2 h
  rw [transact, keySet, if_neg hwf, offer]

/-! The invariant after each transaction. -/

theorem inv_reset : State.reset.Inv where
  memory := rfl
  pcBound := by decide
  indexBound := by decide
  stackBound := by decide
  running _ := ⟨rfl, rfl, rfl, rfl⟩
  halted hhalt := by cases hhalt

section transactions
variable {s : State} (hs : s.Inv)
include hs

theorem stepWith_keeps_inv (b : Byte) : ∃ t, stepWith b s = .next t ∧ t.Inv := by
  rcases stepWith_cases b s with ⟨x, nn, hrun, hpc, hd⟩ | hstep
  · exact ⟨_, stepWith_rnd b hrun hpc hd, inv_rnd hs hrun hpc x _⟩
  · rw [hstep]
    exact step_keeps_inv hs

theorem load_keeps_inv (bytes : List Byte) : ∃ t r, transact (.load bytes) s = .next (t, r) ∧ t.Inv := by
  rcases Nat.lt_or_ge 3584 bytes.length with hlong | hfits
  · exact ⟨_, _, transact_load_refused hlong s, hs⟩
  · have hwf : (s.mem.writeBytes 0x200 bytes).wf = true := wf_writeBytes hs.memory (by omega)
    exact ⟨_, _, transact_load_accepted hfits s, hwf, hs.pcBound, hs.indexBound, hs.stackBound, hs.running,
      hs.halted⟩

theorem keySet_keeps_inv (index : Nat) (pressed : Bool) :
    ∃ t r, transact (.keySet index pressed) s = .next (t, r) ∧ t.Inv := by
  rcases Nat.lt_or_ge index 16 with hkey | hnone
  · exact ⟨_, _, transact_keySet_accepted hkey pressed s, hs.memory, hs.pcBound, hs.indexBound, hs.stackBound,
      hs.running, hs.halted⟩
  · exact ⟨_, _, transact_keySet_refused hnone pressed s, hs⟩

theorem transact_keeps_inv (e : Event) : ∃ t r, transact e s = .next (t, r) ∧ t.Inv := by
  cases e with
  | reset =>
    exact ⟨_, _, rfl, inv_reset.memory, inv_reset.pcBound, inv_reset.indexBound, inv_reset.stackBound,
      inv_reset.running, inv_reset.halted⟩
  | load bytes => exact load_keeps_inv hs bytes
  | step b =>
    obtain ⟨t, hstep, ht⟩ := stepWith_keeps_inv hs b
    exact ⟨t, _, transact_step hstep, ht⟩
  | tick =>
    exact ⟨_, _, transact_tick s, hs.memory, hs.pcBound, hs.indexBound, hs.stackBound, hs.running, hs.halted⟩
  | keySet index pressed => exact keySet_keeps_inv hs index pressed
  | screen => exact ⟨_, _, transact_screen s, hs⟩

end transactions

theorem inv_of_reachable {s : State} (h : Reachable s) : s.Inv := by
  induction h with
  | reset => exact inv_reset
  | transact _ htransact ih =>
    obtain ⟨t, r, hnext, ht⟩ := transact_keeps_inv ih _
    cases htransact.symm.trans hnext
    exact ht

/-! The obligations. -/

/-- Settles O15: of the four cases of a step, two take a fault and one runs an instruction, which commits within
the bounds or takes a fault. -/
theorem stepKeepsTheInvariant : Obligations.StepKeepsTheInvariant := by
  intro s t hs hstep
  obtain ⟨u, hnext, hu⟩ := step_keeps_inv hs
  cases hstep.symm.trans hnext
  exact hu

/-- Settles O16: a transaction other than Step writes no bounded field, or bytes that fit, or the Reset state. -/
theorem transactionsKeepTheInvariant : Obligations.TransactionsKeepTheInvariant :=
  fun e _ hs => transact_keeps_inv hs e

/-- Settles O17: the bounds are fields of the invariant, which every reachable state has. -/
theorem reachableBoundsOnPcAndIndex : Obligations.ReachableBoundsOnPcAndIndex := by
  intro s hreach
  have hs := inv_of_reachable hreach
  exact ⟨hs.pcBound, hs.indexBound, fun k _ => hs.stackBound k⟩

/-- Settles O14: every field of the invariant is a closed fact about `State.reset`. -/
theorem resetHasTheInvariant : Obligations.ResetHasTheInvariant :=
  inv_reset

end Sys2Proof.Machine

/-! # The step cycle (40_step_cycle.md) and fault entry (60_exceptions.md): the proofs about `step` and runs of it

`step_cases` and the three `step_…` laws say what a step does; what is left is that the word they speak of is the
big-endian one, and how a run is built from its steps. -/

namespace Sys2Proof.Machine

/-! The word at PC. -/

theorem eq_readWord {m : Memory} {a : Nat} {w : Word}
    (h : w.toNat = (m.read a).toNat * 256 + (m.read (a + 1)).toNat) : w = m.readWord a :=
  BitVec.eq_of_toNat_eq (h.trans (readWord_toNat m a).symm)

theorem ofNat_bytes_eq_readWord (m : Memory) (a : Nat) :
    BitVec.ofNat 16 ((m.read a).toNat * 256 + (m.read (a + 1)).toNat) = m.readWord a := by
  rw [← readWord_toNat, BitVec.ofNat_toNat, BitVec.setWidth_eq]

theorem faulted_takeFault (s : State) (c : Cause) (w u : Word) :
    Faulted s c w.toNat u.toNat (s.takeFault c w u) :=
  ⟨rfl, rfl, rfl⟩

/-! Runs of the machine. -/

theorem core_run_succ {s t : State} (h : step s = .next t) (k : Nat) :
    Sys2Proof.core.run (k + 1) s = Sys2Proof.core.run k t := by
  have hcore : Sys2Proof.core.step s = .next t := h
  simp only [Host.Core.run, hcore]

/-- A run of one Step more, that Step taken last. -/
theorem core_run_succ_last {k : Nat} {s t u : State} (hrun : Sys2Proof.core.run k s = .next t)
    (hstep : step t = .next u) : Sys2Proof.core.run (k + 1) s = .next u := by
  induction k generalizing s with
  | zero =>
    cases hrun
    exact core_run_succ hstep 0
  | succ k ih =>
    cases hfirst : step s with
    | next s' =>
      rw [core_run_succ hfirst] at hrun ⊢
      exact ih hrun
    | fault f => exact nomatch f
    | refused f =>
      have hcore : Sys2Proof.core.step s = .refused f := hfirst
      simp only [Host.Core.run, hcore, reduceCtorEq] at hrun

theorem core_run_halted {s : State} (hhalt : s.halt = true) (k : Nat) : Sys2Proof.core.run k s = .next s := by
  induction k with
  | zero => rfl
  | succ k ih => exact core_run_succ_last ih (step_halted hhalt)

/-! The machine with nothing loaded (70_reset_and_hazards.md R245). -/

theorem background_of_ge {a : Nat} (h : 80 ≤ a) : Memory.background a = 0 :=
  List.getD_eq_default _ _ h

/-- The Reset state with PC moved to `p`. -/
def unloadedAt (p : Word) : State := { State.reset with pc := p }

theorem unloadedAt_readWord {p : Word} (h : 80 ≤ p.toNat) :
    (unloadedAt p).mem.readWord (unloadedAt p).pc.toNat = 0 := by
  show wordOfBytes (Memory.background p.toNat) (Memory.background (p.toNat + 1)) = 0
  rw [background_of_ge h, background_of_ge (Nat.le_succ_of_le h)]
  rfl

/-- Above the glyphs every word is 0, a NOP. -/
theorem step_unloadedAt {p : Word} (hlow : 80 ≤ p.toNat) (hhigh : p.toNat ≤ 0xFFE) :
    step (unloadedAt p) = .next (unloadedAt (p + 2)) := by
  have hnop : decode ((unloadedAt p).mem.readWord (unloadedAt p).pc.toNat) = some .nop := by
    rw [unloadedAt_readWord hlow]
    rfl
  exact step_decoded rfl hhigh hnop

theorem run_unloaded {k : Nat} (hk : k ≤ 1792) :
    Sys2Proof.core.run k State.reset = .next (unloadedAt (BitVec.ofNat 16 (0x200 + 2 * k))) := by
  induction k with
  | zero => rfl
  | succ k ih =>
    have hpc : (BitVec.ofNat 16 (0x200 + 2 * k)).toNat = 0x200 + 2 * k := by
      rw [BitVec.toNat_ofNat]
      omega
    have hnext : BitVec.ofNat 16 (0x200 + 2 * (k + 1)) = BitVec.ofNat 16 (0x200 + 2 * k) + 2 :=
      BitVec.ofNat_add (0x200 + 2 * k) 2
    rw [hnext]
    exact core_run_succ_last (ih (by omega)) (step_unloadedAt (by omega) (by omega))

/-! The obligations. -/

/-- Settles O8: the word of the two bytes is the one `step_decoded` speaks of. -/
theorem stepRunsTheDecodedInstruction : Obligations.StepRunsTheDecodedInstruction := by
  intro s i hrun hpc hd
  rw [ofNat_bytes_eq_readWord] at hd
  exact step_decoded hrun hpc hd

/-- Settles O9: the fault of a failing fetch, whose value is `outOfRangeValue_toNat`. -/
theorem fetchOutsideMemoryFaults : Obligations.FetchOutsideMemoryFaults := by
  intro s hrun hpc
  refine ⟨_, step_fetch_fails hrun (by omega), ?_⟩
  rw [← outOfRangeValue_toNat]
  exact faulted_takeFault s .outOfBounds 0 _

/-- Settles O10: the word no row selects is one the tree does not decode (`decode_eq_none_iff_no_row`). -/
theorem illegalWordFaults : Obligations.IllegalWordFaults := by
  intro s w hrun hpc hword hnone
  cases eq_readWord hword
  have hd := (decode_eq_none_iff_no_row _).2 hnone
  exact ⟨_, step_illegal hrun hpc hd, faulted_takeFault s .unimplementedOpcode _ _⟩

/-- Settles O11: each Step answers the state it was given, with the host's byte too. -/
theorem haltedStepsChangeNothing : Obligations.HaltedStepsChangeNothing := by
  intro s k b hhalt
  refine ⟨core_run_halted hhalt k, ?_⟩
  rw [stepWith, if_pos hhalt]

/-- Settles O13: of the cases of a step, the two failures and a listed fault write the record alone, and a commit
leaves it. -/
theorem stepCommitsOrChangesOnlyTheFaultRecord : Obligations.StepCommitsOrChangesOnlyTheFaultRecord := by
  intro s hrun
  rcases step_cases s with ⟨hhalt, -⟩ | ⟨-, -, hstep⟩ | ⟨-, -, -, hstep⟩ | ⟨i, -, -, -, hstep⟩
  · rw [hrun] at hhalt
    cases hhalt
  · exact ⟨_, hstep, .inr ⟨by rw [takeFault_cause]; decide, rfl⟩⟩
  · exact ⟨_, hstep, .inr ⟨by rw [takeFault_cause]; decide, rfl⟩⟩
  · rw [hstep]
    rcases exec_cases i s with ⟨-, hcommit⟩ | ⟨c, u, hc, -, hfault⟩
    · exact ⟨_, hcommit, .inl ⟨(commit_halt i s).trans hrun, commit_cause i s, commit_fpc i s, commit_fword i s,
        commit_fval i s⟩⟩
    · exact ⟨_, hfault, .inr ⟨hc, rfl⟩⟩

/-- Settles O59: 1792 NOPs by induction, and the fetch at 0x1000 fails. -/
theorem unloadedMachineRunsNopsThenFaults : Obligations.UnloadedMachineRunsNopsThenFaults := by
  exact ⟨fun k hk => run_unloaded hk, _, core_run_succ_last (run_unloaded le_rfl)
    (step_fetch_fails rfl (by decide)), faulted_takeFault (unloadedAt 0x1000) .outOfBounds 0 0x1000⟩

end Sys2Proof.Machine

/-! # Control flow, skips and arithmetic: the proofs of NOP, CALL and RET, the key skips, the flag-writing
instructions, RND and `LD F, Vx`

The five flag-writing instructions of 43_load_alu.md all answer `s.advance.writeFlagAndResult x flag result`, so
what they leave alone is said once for that update; what is left to each is its flag and its result. -/

namespace Sys2Proof.Machine

/-! The meanings of the instructions. -/

section meanings
variable (x y : Reg) (nn : Byte) (s : State)

theorem exec_nop : exec .nop s = .next s.advance := rfl

theorem exec_call_of_room (nnn : Addr12) (hroom : s.sp.val < 16) : exec (.call nnn) s =
    .next ((s.advance.setStack (s.stack.set s.sp.val (s.pc + 2)) ⟨s.sp.val + 1, by omega⟩).setPc
      (addrOfImm nnn)) := by
  rcases execCall_cases nnn s with ⟨_, hexec⟩ | ⟨hfull, -⟩
  · exact hexec
  · omega

theorem exec_ret_of_any (hany : 0 < s.sp.val) : exec .ret s =
    .next ((s.advance.setStack s.stack ⟨s.sp.val - 1, by omega⟩).setPc (s.stack[s.sp.val - 1]'(by omega))) := by
  rcases execRet_cases s with ⟨_, hexec⟩ | ⟨hempty, -⟩
  · exact hexec
  · omega

theorem exec_skp_of_key (hkey : (s.readV x).toNat < 16) :
    exec (.skp x) s = .next (s.advance.skipIf s.key[(s.readV x).toNat]) := by
  rcases execSkp_cases x s with ⟨_, hexec⟩ | ⟨hnone, -⟩
  · exact hexec
  · exact absurd hkey hnone

theorem exec_sknp_of_key (hkey : (s.readV x).toNat < 16) :
    exec (.sknp x) s = .next (s.advance.skipIf (!s.key[(s.readV x).toNat])) := by
  rcases execSknp_cases x s with ⟨_, hexec⟩ | ⟨hnone, -⟩
  · exact hexec
  · exact absurd hkey hnone

theorem exec_addReg : exec (.addReg x y) s =
    .next (s.advance.writeFlagAndResult x (carryFlag ((s.readV x).toNat + (s.readV y).toNat))
      (BitVec.ofNat 8 ((s.readV x).toNat + (s.readV y).toNat))) := rfl

theorem exec_subReg : exec (.subReg x y) s =
    .next (s.advance.writeFlagAndResult x (noBorrowFlag ((s.readV x).toNat - (s.readV y).toNat))
      (BitVec.ofInt 8 ((s.readV x).toNat - (s.readV y).toNat))) := rfl

theorem exec_subnReg : exec (.subnReg x y) s =
    .next (s.advance.writeFlagAndResult x (noBorrowFlag ((s.readV y).toNat - (s.readV x).toNat))
      (BitVec.ofInt 8 ((s.readV y).toNat - (s.readV x).toNat))) := rfl

theorem exec_shrReg : exec (.shrReg x y) s =
    .next (s.advance.writeFlagAndResult x (lsbFlag (s.readV y)) (s.readV y >>> 1)) := rfl

theorem exec_shlReg : exec (.shlReg x y) s =
    .next (s.advance.writeFlagAndResult x (msbFlag (s.readV y)) (s.readV y <<< 1)) := rfl

theorem exec_rnd : exec (.rnd x nn) s =
    .next (s.advance.countRnd.writeV x (Config.rnd s.rndCount &&& nn)) := rfl

theorem exec_ldF : exec (.ldF x) s = .next (s.advance.setI (glyphAddress (s.readV x))) := rfl

end meanings

/-! Flag and result after the fetch (40_step_cycle.md R119). -/

section flagAndResult
variable (s : State) (x : Reg) (flag result : Byte)

theorem onlyRegsAndPc_writeFlagAndResult_advance :
    OnlyRegsAndPc s (s.advance.writeFlagAndResult x flag result) :=
  ⟨rfl, fun _ => rfl⟩

theorem readV_writeFlagAndResult_self : (s.writeFlagAndResult x flag result).readV x = result := by
  rw [readV_writeFlagAndResult, if_pos rfl]

theorem readV_writeFlagAndResult_vf (hx : x ≠ 15) : (s.writeFlagAndResult x flag result).readV 15 = flag := by
  rw [readV_writeFlagAndResult, if_neg hx]
  exact if_pos rfl

theorem readV_writeFlagAndResult_advance_of_ne (q : Reg) (hx : q ≠ x) (hvf : q ≠ 15) :
    (s.advance.writeFlagAndResult x flag result).readV q = s.readV q := by
  rw [readV_writeFlagAndResult, if_neg hx.symm, readV_advance]
  exact if_neg hvf.symm

end flagAndResult

/-! The flags and the results as numbers. -/

theorem noBorrowFlag_sub (a b : Nat) : noBorrowFlag ((a : Int) - b) = if b ≤ a then 1 else 0 := by
  have hneg : decide ((a : Int) - b < 0) = !decide (b ≤ a) := by
    rw [← decide_not, decide_eq_decide]
    omega
  rw [noBorrowFlag, hneg, Bool.not_not, flagByte]
  simp only [decide_eq_true_eq]

theorem carryFlag_eq (sum : Nat) : carryFlag sum = if sum > 255 then 1 else 0 := by
  rw [carryFlag, flagByte]
  simp only [decide_eq_true_eq]

/-- The difference of two bytes as a byte: 256 is added on a borrow (R157). -/
theorem ofInt_sub_toNat_add (a b : Byte) :
    (BitVec.ofInt 8 ((a.toNat : Int) - b.toNat)).toNat + b.toNat =
      a.toNat + if b.toNat ≤ a.toNat then 0 else 256 := by
  have ha := a.isLt
  have hb := b.isLt
  rw [BitVec.toNat_ofInt]
  split <;> omega

theorem lsbFlag_toNat (b : Byte) : (lsbFlag b).toNat = b.toNat % 2 := by
  rw [lsbFlag, BitVec.toNat_and]
  exact Nat.and_one_is_mod b.toNat

theorem msbFlag_toNat (b : Byte) : (msbFlag b).toNat = b.toNat / 128 := by
  have hb := b.isLt
  have hshift : (msbFlag b).toNat = (b >>> 7).toNat % 2 := lsbFlag_toNat (b >>> 7)
  rw [hshift, BitVec.toNat_ushiftRight, Nat.shiftRight_eq_div_pow]
  omega

theorem ushiftRight_one_toNat (b : Byte) : (b >>> 1).toNat = b.toNat / 2 := by
  rw [BitVec.toNat_ushiftRight, Nat.shiftRight_eq_div_pow, pow_one]

theorem shiftLeft_one_toNat (b : Byte) : (b <<< 1).toNat = b.toNat * 2 % 256 := by
  rw [BitVec.toNat_shiftLeft, Nat.shiftLeft_eq, pow_one]

/-! A register write that counts a draw (43_load_alu.md R163). -/

theorem writeV_countRnd_frame (s : State) (x : Reg) (b : Byte) : s.advance.countRnd.writeV x b =
    { s with v := (s.advance.countRnd.writeV x b).v, pc := s.pc + 2, rndCount := s.rndCount + 1 } := rfl

theorem otherRegsSame_writeV_countRnd (s : State) (x : Reg) (b : Byte) :
    OtherRegsSame s (s.advance.countRnd.writeV x b) x :=
  otherRegsSame_writeV_advance s x b

theorem and_and_not (a m : Byte) : a &&& m &&& ~~~m = 0 := by
  rw [BitVec.and_assoc, BitVec.and_not_self]
  exact BitVec.and_zero

/-! The obligations. -/

/-- Settles O22: the fetch's advance is all it does, and that writes PC alone. -/
theorem nopOnlyAdvances : Obligations.NopOnlyAdvances :=
  fun s => ⟨_, exec_nop s, onlyPc_setPc s _, rfl⟩

/-- Settles O25: the push writes slot SP and no other. -/
theorem callPushesThePostFetchPc : Obligations.CallPushesThePostFetchPc := by
  intro nnn s hroom
  refine ⟨_, exec_call_of_room s nnn hroom, rfl, fun _ => rfl, addrOfImm_toNat nnn, rfl, fun k => ?_⟩
  rw [setPc_stack, setStack_stack, Fin.getElem_fin, Vector.getElem_set, Fin.getElem_fin]
  simp only [eq_comm]

/-- Settles O26: the pop reads the slot below SP. -/
theorem returnPopsPc : Obligations.ReturnPopsPc := by
  intro s hany
  refine ⟨_, exec_ret_of_any s hany, rfl, fun _ => rfl, Nat.sub_add_cancel hany, fun k hk => ?_⟩
  have hslot : k.val = s.sp.val - 1 := hk
  simp only [setPc_pc, Fin.getElem_fin, hslot]

/-- Settles O27: the slot RET reads is the one CALL wrote, by O25 and O26. -/
theorem returnUndoesCall : Obligations.ReturnUndoesCall := by
  intro nnn s t u hroom hcall hsp hstack
  obtain ⟨t', hcall', -, -, -, hpush, hslots⟩ := callPushesThePostFetchPc nnn s hroom
  cases hcall.symm.trans hcall'
  obtain ⟨r, hret, -, -, hpop, hpc⟩ := returnPopsPc u (by omega)
  have hback : r.sp = s.sp := Fin.ext (by omega)
  refine ⟨r, hret, ?_, hback⟩
  rw [hpc ⟨s.sp.val, hroom⟩ (congrArg Fin.val hback.symm), hstack, hslots, if_pos rfl]

/-- Settles O49: an index up to 15 names a key, and both are skips on its flag. -/
theorem keySkipsTestTheFlag : Obligations.KeySkipsTestTheFlag := by
  intro x k s hk
  have hkey : (s.readV x).toNat < 16 := hk ▸ k.isLt
  have hflag : s.key[(s.readV x).toNat] = s.key[k] := by simp only [hk, Fin.getElem_fin]
  constructor
  · refine ⟨_, exec_skp_of_key x s hkey, onlyPc_skipIf_advance s _, ?_⟩
    rw [hflag, skipIf_advance, setPc_pc, State.skipPc]
  · refine ⟨_, exec_sknp_of_key x s hkey, onlyPc_skipIf_advance s _, ?_⟩
    rw [hflag, skipIf_advance, setPc_pc, State.skipPc]
    simp only [Bool.not_eq_true']

/-- Settles O33: the result is the integer sum, which a byte holds modulo 256. -/
theorem addSetsCarry : Obligations.AddSetsCarry := by
  intro x y s
  refine ⟨_, exec_addReg x y s, onlyRegsAndPc_writeFlagAndResult_advance s x _ _, rfl, ?sum, fun hx => ?carry,
    readV_writeFlagAndResult_advance_of_ne s x _ _⟩
  case sum => rw [readV_writeFlagAndResult_self, BitVec.toNat_ofNat]
  case carry => rw [readV_writeFlagAndResult_vf _ _ _ _ hx, carryFlag_eq]

/-- Settles O34: both are one subtraction, with the operands the other way round. -/
theorem subtractionsSetNoBorrow : Obligations.SubtractionsSetNoBorrow := by
  intro x y s
  constructor
  · refine ⟨_, exec_subReg x y s, onlyRegsAndPc_writeFlagAndResult_advance s x _ _, rfl, ?difference,
      fun hx => ?noBorrow, readV_writeFlagAndResult_advance_of_ne s x _ _⟩
    case difference => rw [readV_writeFlagAndResult_self, ofInt_sub_toNat_add]
    case noBorrow => rw [readV_writeFlagAndResult_vf _ _ _ _ hx, noBorrowFlag_sub]
  · refine ⟨_, exec_subnReg x y s, onlyRegsAndPc_writeFlagAndResult_advance s x _ _, rfl, ?difference,
      fun hx => ?noBorrow, readV_writeFlagAndResult_advance_of_ne s x _ _⟩
    case difference => rw [readV_writeFlagAndResult_self, ofInt_sub_toNat_add]
    case noBorrow => rw [readV_writeFlagAndResult_vf _ _ _ _ hx, noBorrowFlag_sub]

/-- Settles O35: flag and result are the two parts of V[Y] that a shift by one separates. -/
theorem shiftsTakeVyAndSetVf : Obligations.ShiftsTakeVyAndSetVf := by
  intro x y s
  constructor
  · refine ⟨_, exec_shrReg x y s, onlyRegsAndPc_writeFlagAndResult_advance s x _ _, rfl, ?half,
      fun hx => ?bit0, readV_writeFlagAndResult_advance_of_ne s x _ _⟩
    case half => rw [readV_writeFlagAndResult_self, ushiftRight_one_toNat]
    case bit0 => rw [readV_writeFlagAndResult_vf _ _ _ _ hx, lsbFlag_toNat]
  · refine ⟨_, exec_shlReg x y s, onlyRegsAndPc_writeFlagAndResult_advance s x _ _, rfl, ?double,
      fun hx => ?bit7, readV_writeFlagAndResult_advance_of_ne s x _ _⟩
    case double => rw [readV_writeFlagAndResult_self, shiftLeft_one_toNat]
    case bit7 => rw [readV_writeFlagAndResult_vf _ _ _ _ hx, msbFlag_toNat]

/-- Settles O36: one register write of the free byte under the mask NN. -/
theorem randomByteIsMasked : Obligations.RandomByteIsMasked := by
  intro x nn s
  have hread := readV_writeV_self s.advance.countRnd x (Config.rnd s.rndCount &&& nn)
  refine ⟨_, exec_rnd x nn s, writeV_countRnd_frame s x _, fun _ => rfl, hread, ?outside, fun hnn => ?none,
    otherRegsSame_writeV_countRnd s x _⟩
  case outside => rw [hread, and_and_not]
  case none =>
    rw [hread, hnn]
    exact BitVec.and_zero

/-- Settles O37: CXNN takes the host's byte (`stepWith_rnd`), and the step of another instruction is `step`. -/
theorem stepEventSuppliesTheRandomByte : Obligations.StepEventSuppliesTheRandomByte := by
  intro s i b hrun hpc hword
  have hd : decode (s.mem.readWord s.pc.toNat) = some i := by rw [hword, decode_encode]
  split
  · next x nn =>
    exact ⟨_, transact_step (stepWith_rnd b hrun hpc hd), writeV_countRnd_frame s x _, readV_writeV_self _ x _,
      otherRegsSame_writeV_countRnd s x _⟩
  · next hother =>
    rcases stepWith_cases b s with ⟨x, nn, -, -, hrnd⟩ | hstep
    · exact absurd (Option.some_inj.1 (hd.symm.trans hrnd)) (hother x nn)
    · rw [hstep, step_decoded hrun hpc hd]

/-- Settles O39: five times a byte is at most 5 * 255. -/
theorem glyphAddressIsFiveTimesTheByte : Obligations.GlyphAddressIsFiveTimesTheByte := by
  intro x s
  have hbyte := (s.readV x).isLt
  refine ⟨_, exec_ldF x s, onlyIndexAndPc_setI_advance s _, setI_advance_pc s _, ?product, ?bound⟩
  case product => rw [setI_i, glyphAddress_toNat]
  case bound =>
    rw [setI_i, glyphAddress_toNat]
    omega

end Sys2Proof.Machine

/-! # Memory instructions (44_index_memory.md, 20_memory.md): the proofs of FX33, FX55 and FX65

`read_writeBytes` is read at its two sides, inside and outside the bytes written; each instruction in range answers
its commit. -/

namespace Sys2Proof.Machine

/-! The two sides of a store. -/

section stores
variable {m : Memory} (hm : m.wf = true) {a : Nat} {bytes : List Byte} (hfits : a + bytes.length ≤ 4096)
include hm hfits

theorem read_writeBytes_inside {k : Nat} (hk : k < bytes.length) :
    (m.writeBytes a bytes).read (a + k) = bytes[k] := by
  have hsub : a + k - a = k := Nat.add_sub_cancel_left a k
  rw [read_writeBytes hm hfits, dif_pos ⟨by omega, by omega⟩]
  simp only [hsub]

theorem read_writeBytes_outside {b : Nat} (hb : b < a ∨ a + bytes.length ≤ b) :
    (m.writeBytes a bytes).read b = m.read b := by
  rw [read_writeBytes hm hfits, dif_neg (by omega)]

end stores

/-! The meanings of the instructions in range. -/

section inRange
variable {x : Reg} {s : State}

theorem exec_ldB_of_inRange (h : s.i.toNat + 2 ≤ 0xFFF) : exec (.ldB x) s =
    .next (s.advance.setMem (s.mem.writeBytes s.i.toNat (bcdBytes (s.readV x)))) :=
  exec_of_not_listed (if_neg (Nat.not_lt.2 h))

theorem exec_storeRegs_of_inRange (h : s.i.toNat + x.val ≤ 0xFFF) : exec (.storeRegs x) s =
    .next ((s.advance.setMem (s.mem.writeBytes s.i.toNat (s.regBlock x))).setI (indexPast s.i x)) :=
  exec_of_not_listed (if_neg (Nat.not_lt.2 h))

theorem exec_loadRegs_of_inRange (h : s.i.toNat + x.val ≤ 0xFFF) : exec (.loadRegs x) s =
    .next ((s.advance.setV (s.loadedRegs s.i.toNat x)).setI (indexPast s.i x)) :=
  exec_of_not_listed (if_neg (Nat.not_lt.2 h))

theorem indexPast_toNat_of_inRange (h : s.i.toNat + x.val ≤ 0xFFF) :
    (indexPast s.i x).toNat = s.i.toNat + x.val + 1 :=
  indexPast_toNat (Nat.succ_le_succ h)

theorem regBlock_fits (h : s.i.toNat + x.val ≤ 0xFFF) : s.i.toNat + (s.regBlock x).length ≤ 4096 := by
  rw [regBlock_length]
  exact Nat.succ_le_succ h

theorem bcdBytes_fits (h : s.i.toNat + 2 ≤ 0xFFF) (b : Byte) : s.i.toNat + (bcdBytes b).length ≤ 4096 :=
  Nat.succ_le_succ h

end inRange

/-! The digits of a byte (R173). -/

theorem byteOfNat_toNat {n : Nat} (h : n < 256) : (BitVec.ofNat 8 n).toNat = n := by
  rw [BitVec.toNat_ofNat]
  exact Nat.mod_eq_of_lt h

theorem hundreds_lt (b : Byte) : b.toNat / 100 < 256 := (Nat.div_le_self _ _).trans_lt b.isLt

theorem digit_lt (n : Nat) : n % 10 < 256 := (Nat.mod_lt n (by decide)).trans (by decide)

/-! Loading a block of registers after the fetch. -/

theorem setI_setV_advance_frame (s : State) (vs : Vector Byte 16) (a : Word) : (s.advance.setV vs).setI a =
    { s with v := ((s.advance.setV vs).setI a).v, pc := s.pc + 2, i := ((s.advance.setV vs).setI a).i } := rfl

theorem sameBytes_setI_setV_advance (s : State) (vs : Vector Byte 16) (a : Word) :
    SameBytes s ((s.advance.setV vs).setI a) :=
  fun _ => rfl

/-! The Step after a store (20_memory.md R76). -/

/-- After a store at I, whatever instruction made it, the next fetch sees the bytes stored. -/
theorem fetch_and_step_of_store {s t : State} {bytes : List Byte} (hm : s.mem.wf = true)
    (hpc : (s.pc + 2).toNat ≤ 0xFFE) (hfits : s.i.toNat + bytes.length ≤ 4096)
    (htpc : t.pc = s.pc + 2) (hmem : t.mem = s.mem.writeBytes s.i.toNat bytes) (hhalt : t.halt = s.halt) :
    let byteAt := byteWithStored s bytes
    let w := wordOfBytes (byteAt (s.pc + 2).toNat) (byteAt ((s.pc + 2).toNat + 1))
    t.fetch = some w ∧ ∀ i, s.halt = false → decode w = some i → step t = exec i t := by
  have hword : t.mem.readWord t.pc.toNat = wordOfBytes (byteWithStored s bytes (s.pc + 2).toNat)
      (byteWithStored s bytes ((s.pc + 2).toNat + 1)) := by
    rw [Memory.readWord, htpc, hmem, read_writeBytes_eq_byteWithStored hm hfits,
      read_writeBytes_eq_byteWithStored hm hfits]
  have hpc' : t.pc.toNat ≤ 0xFFE := htpc ▸ hpc
  refine ⟨(fetch_eq_some hpc').trans (congrArg some hword), fun i hrun hd => ?_⟩
  exact step_decoded (hhalt.trans hrun) hpc' (hword ▸ hd)

/-! The obligations. -/

/-- Settles O41: the three bytes are the digits, and the rest of memory is outside the store. -/
theorem bcdStoresThreeDigits : Obligations.BcdStoresThreeDigits := by
  intro x s hm hin
  have hfits := bcdBytes_fits hin (s.readV x)
  have hread (k : Nat) (hk : k < 3) := read_writeBytes_inside hm hfits (k := k) hk
  refine ⟨_, exec_ldB_of_inRange hin, rfl, ?hundreds, ?tens, ?ones, fun a ha => ?others, wf_writeBytes hm hfits⟩
  case hundreds => exact (congrArg _ (hread 0 (by decide))).trans (byteOfNat_toNat (hundreds_lt _))
  case tens => exact (congrArg _ (hread 1 (by decide))).trans (byteOfNat_toNat (digit_lt _))
  case ones => exact (congrArg _ (hread 2 (by decide))).trans (byteOfNat_toNat (digit_lt _))
  case others => exact read_writeBytes_outside hm hfits (by rw [bcdBytes_length]; omega)

/-- Settles O42: byte k of the block stored is V[k]. -/
theorem storeRegistersAtIndex : Obligations.StoreRegistersAtIndex := by
  intro x s hm hin
  have hfits := regBlock_fits hin
  refine ⟨_, exec_storeRegs_of_inRange hin, rfl, indexPast_toNat_of_inRange hin, fun k hk => ?block,
    fun a ha => ?others, wf_writeBytes hm hfits⟩
  case block =>
    have hlen : k.val < (s.regBlock x).length := by
      rw [regBlock_length]
      exact Nat.lt_succ_of_le hk
    exact (read_writeBytes_inside hm hfits hlen).trans (regBlock_getElem s x k.val hlen)
  case others => exact read_writeBytes_outside hm hfits (by rw [regBlock_length, blockLen]; omega)

/-- Settles O43: `loadedRegs_getElem`, register by register. -/
theorem loadRegistersFromIndex : Obligations.LoadRegistersFromIndex := by
  intro x s hin
  refine ⟨_, exec_loadRegs_of_inRange hin, setI_setV_advance_frame s _ _, sameBytes_setI_setV_advance s _ _,
    indexPast_toNat_of_inRange hin, fun k => ?_⟩
  rw [readV_setI, readV_setV, loadedRegs_getElem]

/-- Settles O44: FX65 reads (O43) the bytes FX55 stored (O42), from the same I. -/
theorem loadAfterStoreRestoresRegisters : Obligations.LoadAfterStoreRestoresRegisters := by
  intro x s t u hm hin hstore hmem hi
  obtain ⟨t', hstore', -, hpast, hblock, -, -⟩ := storeRegistersAtIndex x s hm hin
  cases hstore.symm.trans hstore'
  obtain ⟨r, hload, -, -, hpast', hregs⟩ := loadRegistersFromIndex x u (hi ▸ hin)
  refine ⟨r, hload, BitVec.eq_of_toNat_eq ?index, fun k hk => ?registers⟩
  case index => rw [hpast', hpast, hi]
  case registers => rw [hregs k, if_pos hk, hmem, hi, hblock k hk]

/-- Settles O45: both stores are `fetch_and_step_of_store`. -/
theorem storedWordIsFetchedNext : Obligations.StoredWordIsFetchedNext := by
  intro x s hm hpc
  refine ⟨fun hin => ⟨_, exec_storeRegs_of_inRange hin, rfl, ?registers⟩,
    fun hin => ⟨_, exec_ldB_of_inRange hin, rfl, ?digits⟩⟩
  case registers => exact fetch_and_step_of_store hm hpc (regBlock_fits hin) rfl rfl rfl
  case digits => exact fetch_and_step_of_store hm hpc (bcdBytes_fits hin _) rfl rfl rfl

end Sys2Proof.Machine

/-! # Drawing (45_display.md): the proofs of DXYN and of the XOR-drawing law

A pixel is the cell at `px + 64 * py`, and the sprite covers it exactly when that cell is one DXYN draws on; so
`drawCells_getElem` and `drawCells_collision` speak of pixels. -/

namespace Sys2Proof.Machine

/-! The meaning of the instruction in range. -/

section drw
variable {x y : Reg} {n : Fin 16} {s : State}

theorem exec_drw_of_inRange (h : n.val = 0 ∨ s.i.toNat + n.val - 1 ≤ 0xFFF) : exec (.drw x y n) s =
    .next ((s.advance.setDisp (drawCells s.disp (drwCells x y n s)).1).writeV vf
      (collisionFlag (drawCells s.disp (drwCells x y n s)).2)) :=
  exec_of_not_listed (if_neg (by omega))

theorem writeV_setDisp_advance_frame (d : Vector Bool 2048) (r : Reg) (b : Byte) :
    (s.advance.setDisp d).writeV r b =
      { s with v := ((s.advance.setDisp d).writeV r b).v, pc := s.pc + 2,
               disp := ((s.advance.setDisp d).writeV r b).disp } := rfl

theorem otherRegsSame_writeV_setDisp_advance (d : Vector Bool 2048) (r : Reg) (b : Byte) :
    OtherRegsSame s ((s.advance.setDisp d).writeV r b) r :=
  otherRegsSame_writeV_advance s r b

theorem drwCells_nodup : (drwCells x y n s).Nodup :=
  spriteCells_nodup _ _ _ _ (by omega)

end drw

/-! Pixels and cells. -/

/-- The cell of a pixel (10_state.md R28). -/
def pixelCell (px py : Nat) (h : px < 64 ∧ py < 32) : Fin 2048 := ⟨px + 64 * py, by omega⟩

theorem pixel_eq (s : State) (px py : Nat) (h : px < 64 ∧ py < 32) :
    pixel s px py h = s.disp[pixelCell px py h] := rfl

theorem exists_pixelCell (k : Fin 2048) : ∃ px py, ∃ h : px < 64 ∧ py < 32, pixelCell px py h = k :=
  ⟨k.val % 64, k.val / 64, ⟨by omega, by omega⟩, Fin.ext (Nat.mod_add_div k.val 64)⟩

/-- Displays that agree pixel by pixel are the same. -/
theorem disp_ext {s u : State} (hpixels : ∀ px py h, pixel u px py h = pixel s px py h) : u.disp = s.disp := by
  have hcells (k : Fin 2048) : u.disp[k] = s.disp[k] := by
    obtain ⟨px, py, h, rfl⟩ := exists_pixelCell k
    exact hpixels px py h
  exact Vector.ext fun k hk => hcells ⟨k, hk⟩

theorem spriteCell_eq_pixelCell {vx vy : Byte} {row col px py : Nat} (h : px < 64 ∧ py < 32) :
    spriteCell vx vy row col = pixelCell px py h ↔ (vx.toNat + col) % 64 = px ∧ (vy.toNat + row) % 32 = py := by
  rw [spriteCell, pixelCell, Fin.mk.injEq]
  omega

theorem spriteBit_eq (s : State) (row : Nat) {col : Nat} (hcol : col < 8) :
    spriteBit s row col = (s.mem.read (s.i.toNat + row)).getLsbD (7 - col) := by
  rw [spriteBit, BitVec.getMsbD_eq_getLsbD, decide_eq_true hcol, Bool.true_and]

theorem covers_iff_mem {s : State} {x y : Reg} {n : Fin 16} {px py : Nat} (h : px < 64 ∧ py < 32) :
    Covers s x y n px py ↔ pixelCell px py h ∈ drwCells x y n s := by
  rw [drwCells, mem_spriteCells, Covers]
  refine exists_congr fun row => and_congr_right fun _ => exists_congr fun col => and_congr_right fun hcol => ?_
  rw [spriteBit_eq s row hcol, spriteCell_eq_pixelCell h]

theorem exists_covered_iff {s : State} {x y : Reg} {n : Fin 16} (d : Vector Bool 2048) :
    (drwCells x y n s).any (fun k => d[k]) = true ↔
      ∃ px py, ∃ h : px < 64 ∧ py < 32, Covers s x y n px py ∧ d[pixelCell px py h] = true := by
  rw [List.any_eq_true]
  constructor
  · rintro ⟨k, hk, hlit⟩
    obtain ⟨px, py, h, rfl⟩ := exists_pixelCell k
    exact ⟨px, py, h, (covers_iff_mem h).2 hk, hlit⟩
  · rintro ⟨px, py, h, hcovers, hlit⟩
    exact ⟨pixelCell px py h, (covers_iff_mem h).1 hcovers, hlit⟩

theorem collisionFlag_zero_or_one (c : Bool) : collisionFlag c = 0 ∨ collisionFlag c = 1 := by
  cases c with
  | false => exact .inl rfl
  | true => exact .inr rfl

/-! What a draw depends on. -/

theorem covers_congr {s t : State} {x y : Reg} (hmem : t.mem = s.mem) (hi : t.i = s.i)
    (hx : t.readV x = s.readV x) (hy : t.readV y = s.readV y) (n : Fin 16) (px py : Nat) :
    Covers t x y n px py ↔ Covers s x y n px py := by
  rw [Covers, Covers, hx, hy]
  simp only [spriteBit, hmem, hi]

/-! The obligations. -/

/-- Settles O47: the cells drawn on are the covered pixels, each once, so each is inverted once. -/
theorem drawInvertsCoveredPixels : Obligations.DrawInvertsCoveredPixels := by
  intro x y n s hin
  have hcell := drawCells_getElem (drwCells_nodup (x := x) (y := y) (n := n) (s := s)) s.disp
  refine ⟨_, exec_drw_of_inRange hin, writeV_setDisp_advance_frame _ _ _, fun _ => rfl,
    otherRegsSame_writeV_setDisp_advance _ _ _, fun px py h => ⟨fun hcovers => ?inverted, fun hnot => ?kept⟩,
    ?flag, ?collision⟩
  case inverted =>
    rw [pixel_eq, pixel_eq, writeV_disp, setDisp_disp, hcell, decide_eq_true ((covers_iff_mem h).1 hcovers),
      Bool.xor_true]
  case kept =>
    rw [pixel_eq, pixel_eq, writeV_disp, setDisp_disp, hcell, decide_eq_false (mt (covers_iff_mem h).2 hnot),
      Bool.xor_false]
  case flag =>
    rw [show (15 : Reg) = vf from rfl, readV_writeV_self]
    exact collisionFlag_zero_or_one _
  case collision =>
    rw [show (15 : Reg) = vf from rfl, readV_writeV_self, collisionFlag, flagByte_eq_one,
      drawCells_collision drwCells_nodup]
    exact exists_covered_iff s.disp

/-- Settles O48: O47 twice; the second draw covers the same pixels, and inverting a pixel twice restores it. -/
theorem drawingTwiceRestoresTheDisplay : Obligations.DrawingTwiceRestoresTheDisplay := by
  intro x y n s t u hin hfirst hx hy hsecond
  obtain ⟨t', hfirst', htframe, -, -, hfirstDraw, -, -⟩ := drawInvertsCoveredPixels x y n s hin
  cases hfirst.symm.trans hfirst'
  have hmem : t.mem = s.mem := (congrArg State.mem htframe).trans rfl
  have hi : t.i = s.i := (congrArg State.i htframe).trans rfl
  obtain ⟨u', hsecond', -, -, -, hsecondDraw, -, hcollision⟩ := drawInvertsCoveredPixels x y n t (hi ▸ hin)
  cases hsecond.symm.trans hsecond'
  have hcovers (px py : Nat) := covers_congr hmem hi hx hy n px py
  simp only [hcovers] at hsecondDraw hcollision
  refine ⟨disp_ext fun px py h => ?_, hcollision⟩
  by_cases hcov : Covers s x y n px py
  · rw [(hsecondDraw px py h).1 hcov, (hfirstDraw px py h).1 hcov, Bool.not_not]
  · rw [(hsecondDraw px py h).2 hcov, (hfirstDraw px py h).2 hcov]

end Sys2Proof.Machine

/-! # Host transactions (60_exceptions.md, 70_reset_and_hazards.md): the proofs of Reset, Load and KeySet, of the
Beep's count, and of what HALT does not stop

What Load and KeySet answer is `transact_load_accepted`, `transact_keySet_accepted` and their refusals, above. -/

namespace Sys2Proof.Machine

/-! Several Ticks. -/

theorem ticks_succ_state (k : Nat) (s : State) : (ticks (k + 1) s).1 = (ticks k (tick s)).1 := rfl

theorem ticks_dt (k : Nat) (s : State) : (ticks k s).1.dt.toNat = s.dt.toNat - k := by
  induction k generalizing s with
  | zero => rfl
  | succ k ih =>
    rw [ticks_succ_state, ih, tick_dt, countDown_toNat]
    omega

theorem ticks_st (k : Nat) (s : State) : (ticks k s).1.st.toNat = s.st.toNat - k := by
  induction k generalizing s with
  | zero => rfl
  | succ k ih =>
    rw [ticks_succ_state, ih, tick_st, countDown_toNat]
    omega

theorem ticks_beeps_length (k : Nat) (s : State) : (ticks k s).2.length = k := by
  induction k generalizing s with
  | zero => rfl
  | succ k ih => exact congrArg Nat.succ (ih (tick s))

/-! The transaction under another fault record. -/

section record
variable (s : State) (h : Bool) (c : Cause) (p w v : Word)

theorem load_withRecord (bytes : List Byte) :
    load bytes (s.withRecord h c p w v) = (load bytes s).map (·.withRecord h c p w v) := by
  unfold load
  split <;> rfl

theorem keySet_withRecord (index : Nat) (pressed : Bool) :
    keySet index pressed (s.withRecord h c p w v) = (keySet index pressed s).map (·.withRecord h c p w v) := by
  unfold keySet
  split <;> rfl

/-- A transaction that may be refused keeps the record it was given, refused or not. -/
theorem offer_withRecord (o : Option State) :
    offer (s.withRecord h c p w v) (o.map (·.withRecord h c p w v)) =
      ((offer s o).1.withRecord h c p w v, (offer s o).2) := by
  cases o <;> rfl

end record

/-! Reset. -/

theorem transact_reset (s : State) : transact .reset s = .next (resetFrom s, .nothing) := rfl

theorem background_of_lt {a : Nat} (h : a < 80) : some (Memory.background a) = glyphRom[a]? := by
  have hlen : a < glyphRom.length := h
  rw [Memory.background, List.getD_eq_getElem _ _ hlen, List.getElem?_eq_getElem hlen]

/-! The obligations. -/

/-- Settles O53: k Ticks take k from each timer, and which of them beeps is `ticks_beep_iff`. -/
theorem oneBeepOnTheTickThatEndsTheSound : Obligations.OneBeepOnTheTickThatEndsTheSound :=
  fun k s => ⟨ticks_dt k s, ticks_st k s, ticks_beeps_length k s, fun m hm => ticks_beep_iff k m s hm⟩

/-- Settles O54: an accepted KeySet writes the one flag, a refused one nothing. -/
theorem keySetWritesOneFlag : Obligations.KeySetWritesOneFlag := by
  intro index pressed s
  refine ⟨fun hkey => ⟨_, transact_keySet_accepted hkey pressed s, rfl, fun k => ?flags⟩,
    fun hnone => transact_keySet_refused hnone pressed s⟩
  rw [setKey_key, Fin.getElem_fin, Vector.getElem_setIfInBounds, Fin.getElem_fin]
  simp only [eq_comm]

/-- Settles O55: the program is bytes stored at 0x200, read inside and outside them. -/
theorem loadCopiesTheProgram : Obligations.LoadCopiesTheProgram := by
  intro bytes s hm
  refine ⟨fun hfits => ?accepted, fun hlong => transact_load_refused hlong s⟩
  have hend : 0x200 + bytes.length ≤ 4096 := by omega
  exact ⟨_, transact_load_accepted hfits s, rfl, wf_writeBytes hm hend,
    fun k hk => read_writeBytes_inside hm hend hk, fun a ha => read_writeBytes_outside hm hend ha⟩

/-- Settles O56: the values of `State.reset`, field by field; nothing is listed in its memory. -/
theorem resetGivesTheTableValues : Obligations.ResetGivesTheTableValues := by
  intro s
  refine ⟨_, transact_reset s, rfl, rfl, rfl, rfl, rfl, rfl, rfl, rfl, rfl, rfl, fun r => ?registers,
    fun k => ⟨?slots, ?keys⟩, fun k => ?cells, fun a ha => background_of_lt ha,
    fun a ha => background_of_ge ha⟩
  case registers => exact Vector.getElem_replicate r.isLt
  case slots => exact Vector.getElem_replicate k.isLt
  case keys => exact Vector.getElem_replicate k.isLt
  case cells => exact Vector.getElem_replicate k.isLt

/-- Settles O57: none of the four reads the record or writes it. -/
theorem hostEventsIgnoreTheHaltLatch : Obligations.HostEventsIgnoreTheHaltLatch := by
  intro e s t r h c p w v hreset hstep htransact
  show transact e (s.withRecord h c p w v) = .next (t.withRecord h c p w v, r)
  cases e with
  | reset => exact absurd rfl hreset
  | step b => exact absurd rfl (hstep b)
  | tick =>
    cases htransact
    rfl
  | screen =>
    cases htransact
    rfl
  | load bytes =>
    rw [transact, Host.Outcome.next.injEq] at htransact
    rw [transact, load_withRecord, offer_withRecord, htransact]
  | keySet index pressed =>
    rw [transact, Host.Outcome.next.injEq] at htransact
    rw [transact, keySet_withRecord, offer_withRecord, htransact]

end Sys2Proof.Machine
